-- ==== Sys2Proof/Word.lean ====
section
/-! DEFINITION. Words of the block: bit vectors of a width fixed at elaboration, symbolic terms and literals
(`00_scope.md` R13, R14, R17; `20_memory.md` R41). -/

namespace Sys2Proof

/-- A `w`-bit vector; bit 0 is the least significant (R13). -/
abbrev Word (w : Nat) := BitVec w

/-- A symbolic term: a set of seed-bit indices (R17), held in its canonical form, strictly ascending. -/
abbrev Term := List Nat

/-- A register snapshot (R17): cell `i` is the `i`-th term. -/
abbrev Snapshot := List Term

/-- An output schedule (R17): entry `k` is the term of cycle `k`. -/
abbrev Schedule := List Term

/-- A polynomial literal: a character string (R50). -/
abbrev Literal := List Char

end Sys2Proof
end

