-- ==== Sys2Proof/Config.lean ====
section
/-! DEFINITION. The configuration `(MODE, W, T, N)` fixed at elaboration (`00_scope.md` R8 to R12, `10_state.md` R20, R21)
and the values the spec leaves free. -/

namespace Sys2Proof

/-- Which of the two variants is generated (R11). -/
inductive Mode where
  | sequential
  | parallel
deriving DecidableEq, Repr

/-- The `suffix` input (R12): it selects a rendering in the parallel module's informational name (R147). -/
inductive Suffix where
  | hex
  | bin
deriving DecidableEq, Repr

/-- The laws of `W` and `T` (R21, R76): `W >= 1`, the taps are a set (strictly ascending list, log 20) of positions below
`W`, and `W-1` is one of them, so the set is not empty. -/
abbrev LegalTaps (width : Nat) (taps : Term) : Prop :=
  0 < width ∧ taps.Pairwise (· < ·) ∧ (∀ t ∈ taps, t < width) ∧ width - 1 ∈ taps

/-- A Polynomial (R17): the width `W` and the tap set `T`, taken only together with the proof of their laws (R21). -/
structure Polynomial where
  width : Nat
  taps  : Term
  legal : decide (LegalTaps width taps) = true
deriving DecidableEq, Repr

/-- The configuration `(MODE, W, T, N)` (R20), taken only together with the proof that it is legal (R21): `N >= 1` in parallel
mode, no `N` in sequential mode. -/
inductive Configuration where
  | sequential (poly : Polynomial)
  | parallel (poly : Polynomial) (n : Nat) (pos : 1 ≤ n)
deriving DecidableEq, Repr

/-- MODE (R11). -/
def Configuration.mode : Configuration → Mode
  | .sequential _ => .sequential
  | .parallel _ _ _ => .parallel

/-- `W` and `T` (R8, R9). -/
def Configuration.poly : Configuration → Polynomial
  | .sequential p => p
  | .parallel p _ _ => p

/-- `N`, absent in sequential mode (R10, R21). -/
def Configuration.outWidth : Configuration → Option Nat
  | .sequential _ => none
  | .parallel _ n _ => some n

/-- DESIGN CHOICE (log 13, safe): how the taps are spelt in a sequential module's informational name. The spec gives no
spelling and no rule depends on it (R147, U7), so it is a free value. -/
opaque Config.tapBitString : Polynomial → List Char

/-- DESIGN CHOICE (log 13, safe): how the polynomial is spelt in a parallel module's informational name; `suffix`
selects between two spellings, neither given (R147, U7), so it is a free value. -/
opaque Config.polynomialRendering : Polynomial → Suffix → List Char

end Sys2Proof
end

