-- ==== Sys2Proof/Syntax.lean ====
section
/-! DEFINITION. The operations of `spec/opcode_table.json`, one constructor a row, and the codes that select them
(`30_encoding.md` R50, R61 to R64). -/

namespace Sys2Proof

/-- One operation of the block. -/
inductive Instr where
  /-- PARSE_BIN (R71); the operand is the whole literal, its prefix included. -/
  | parseBin (lit : Literal)
  /-- PARSE_HEX (R73); the operand is the whole literal, its prefix included. -/
  | parseHex (lit : Literal)
  /-- FEEDBACK (R86); it reads the register and the taps. -/
  | feedback
  /-- LOAD_SEED (R88) of a `w`-bit seed. -/
  | loadSeed (w : Nat) (seed : Word w)
  /-- STEP (R89); the record's `w` seed bits are carried and ignored (R61, R179, log 22). -/
  | step (w : Nat) (seed : Word w)
  /-- EXPAND (R105) of a polynomial over `n` cycles, `n >= 0`. -/
  | expand (p : Polynomial) (n : Nat)
  /-- EVAL (R126); it reads the seed port and the XOR trees. -/
  | eval
deriving DecidableEq, Repr

/-- What selects an operation. -/
inductive Code where
  /-- The `gen_poly` literal, `LIT_BIN` or `LIT_HEX` (R50). -/
  | literal (lit : Literal)
  /-- A `SEQ_CTRL` record of `w + 1` bits: bit `w` is `rst`, bits `w-1..0` are `seed` (R61). -/
  | record (w : Nat) (bits : Word (w + 1))
  /-- The third place of a generation call's order: the mode selects (R64, and EXPAND's row: `match: mode = parallel`). -/
  | elaborate (mode : Mode) (p : Polynomial) (n : Nat)
  /-- An instant of a running module: its always-active net, selected by no field (R62, R63). -/
  | always (mode : Mode)
deriving DecidableEq, Repr

/-- Why the decoder gives no operation. -/
inductive DecodeError where
  /-- The string begins with neither `0b` nor `0x` (R74). -/
  | noPrefix (lit : Literal)
  /-- A record with no seed bits: `W >= 1` (R8, R61). -/
  | noSeedBits
  /-- Sequential mode builds the feedback net, which is no row of the table (R64, R85). -/
  | noOperation
deriving DecidableEq, Repr

end Sys2Proof
end

