-- ==== Sys2Proof/WellFormed.lean ====
section
/-! DEFINITION. Which polynomials, configurations and operations are legal (`10_state.md` R21, `40_polynomial_model.md` R76). -/

namespace Sys2Proof

/-- The laws of a Polynomial (R76, R21), which every Polynomial carries. -/
abbrev Polynomial.Valid (p : Polynomial) : Prop := LegalTaps p.width p.taps

/-- The legal configuration values of R21. -/
structure Configuration.Legal (c : Configuration) : Prop where
  width : 1 ≤ c.poly.width
  taps  : ∀ t ∈ c.poly.taps, t < c.poly.width
  tap   : c.poly.taps ≠ []
  top   : c.poly.width - 1 ∈ c.poly.taps
  given : c.mode = .parallel → ∃ n, c.outWidth = some n ∧ 1 ≤ n
  absent : c.mode = .sequential → c.outWidth = none

/-- The first two characters of the literal are `0` and `c` (R50, R74). -/
def beginsWith (c : Char) (lit : Literal) : Bool := decide (lit.take 2 = ['0', c])

/-- Operations that some code selects. EXPAND's Polynomial carries its laws (R21). -/
def Instr.wf : Instr → Bool
  | .parseBin lit => beginsWith 'b' lit
  | .parseHex lit => beginsWith 'x' lit
  | .feedback => true
  | .loadSeed w _ => decide (0 < w)
  | .step w _ => decide (0 < w)
  | .expand _ _ => true
  | .eval => true

end Sys2Proof
end

