-- ==== Sys2Proof/Machine/State.lean ====
section
/-! DEFINITION. The state of one generation call, the module it generates and the module's environment; the faults and
refusals; the state after reset (`10_state.md`, `60_exceptions.md` R150, R156). -/

namespace Sys2Proof.Machine

/-- The three elaboration errors, with what each records (R150). -/
inductive ElabError where
  /-- The string is outside the grammar of R51 (R151). -/
  | malformedPolynomial (lit : Literal)
  /-- The literal is well formed and its value is 0 (R152). -/
  | zeroPolynomial (lit : Literal)
  /-- `N < 1` in parallel mode (R153). -/
  | invalidOutputWidth (n : Int)
deriving DecidableEq, Repr

/-- Where a generation call stands in the order of R64. DESIGN CHOICE (log 11): one step for each place. -/
inductive Phase where
  /-- no call in progress -/
  | idle
  /-- the literal waits for PARSE_BIN or PARSE_HEX -/
  | parse
  /-- the `out_width` check -/
  | width
  /-- feedback synthesis or EXPAND -/
  | build
  /-- emission -/
  | emit
deriving DecidableEq, Repr

/-- The inputs of a generation call (R66). -/
structure GenCall where
  mode       : Mode
  genPoly    : Literal
  outWidth   : Int
  namePrefix : List Char
  suffix     : Suffix
deriving DecidableEq, Repr

/-- The generation call in progress, or the last one (R27, R64). -/
structure Generator where
  call  : GenCall
  phase : Phase
  /-- The parsed Polynomial (R72). -/
  poly  : Option Polynomial
  /-- The feedback expression of sequential mode (R85). -/
  chain : Option Term
  /-- The OutputSchedule of parallel mode (R105). -/
  sched : Option Schedule
  /-- The error the last call ended with (R150, R154). -/
  error : Option ElabError
deriving DecidableEq, Repr

/-- A sequential module (R22, R25, R28, R30). -/
structure SeqModule where
  poly  : Polynomial
  /-- The level of the clock wire (R30, R32). -/
  clk   : Bool
  /-- The level of the reset wire, active high (R30). -/
  rst   : Bool
  /-- The levels of the seed wires (R30). -/
  seed  : Word poly.width
  /-- The register `state`; `none` is the spec's own value "uninitialised" (R22, R23). -/
  reg   : Option (Word poly.width)
  /-- The level of the feedback net, uninitialised while the register is (R25, R86). -/
  fb    : Option Bool
  /-- Edges since the last LOAD_SEED, undefined before the first (R28, R34). -/
  cycle : Option Nat
deriving DecidableEq, Repr

/-- A parallel module (R26, R31, R125). -/
structure ParModule where
  poly  : Polynomial
  /-- The output width `N`. -/
  n     : Nat
  /-- `N >= 1` (R21). -/
  pos   : 1 ≤ n
  /-- The inputs of the XOR trees: what survives of the OutputSchedule (R27, R125). -/
  trees : Schedule
  /-- The levels of the seed wires (R31). -/
  seed  : Word poly.width
  /-- The levels of the output nets (R31, R126). -/
  out   : Word n
deriving DecidableEq, Repr

/-- The generated hardware: one module of one mode (R11). -/
inductive Circuit where
  | sequential (m : SeqModule)
  | parallel (m : ParModule)
deriving DecidableEq, Repr

/-- The roles of a generated module's ports (R30, R31). -/
inductive PortRole where
  | clk | rst | seed | state | out
deriving DecidableEq, Repr

/-- Port directions (R30, R31). -/
inductive Dir where
  | input | output
deriving DecidableEq, Repr

/-- A port declaration of the emitted text (R144, R145). -/
structure Port where
  role  : PortRole
  dir   : Dir
  width : Nat
deriving DecidableEq, Repr

/-- A token of an XOR chain (R141, R142, R149). -/
inductive Token where
  | regBit (i : Nat)
  | seedBit (i : Nat)
  | xor
deriving DecidableEq, Repr

/-- A statement of the emitted body (R144, R145). -/
inductive Statement where
  /-- The feedback-bit equation (R144). -/
  | feedbackEquation (chain : List Token)
  /-- The clocked process that implements the reset/shift rule (R144, R87). -/
  | clockedResetShift
  /-- The assignment of output bit `k` (R145). -/
  | assignOut (k : Nat) (chain : List Token)
deriving DecidableEq, Repr

/-- What the comment banner states (R146). Its wording and its width in characters are out of scope (R6, R146). -/
structure Banner where
  /-- It states that the artifact is generated. -/
  statesGenerated  : Bool
  /-- It states that the artifact must not be hand-edited. -/
  statesNoHandEdit : Bool
  /-- The bit-width it states. -/
  width            : Nat
  /-- The human-readable polynomial it states (R143). -/
  polynomial       : List Char
deriving DecidableEq, Repr

/-- The emitted text, as far as the spec fixes it (R17, R140 to R149). -/
structure GeneratedModule where
  /-- The comment banner the text opens with (R146). -/
  opening : Banner
  /-- Informational (R147). -/
  name    : List Char
  /-- DESIGN CHOICE (log 28): listed in the order of the tables of R30 and R31. -/
  ports   : List Port
  /-- The body's statements: the two of R144 in its order; the `N` of R145, which has no order, by ascending `k` (DESIGN
  CHOICE, log 28). -/
  body    : List Statement
deriving DecidableEq, Repr

/-- What the environment does next (R30, R31, R32, R66, R156). -/
inductive Input where
  /-- A generation call is made. -/
  | generate (call : GenCall)
  /-- The clock wire takes a level; an active edge when it rises (R32). -/
  | clk (level : Bool)
  /-- The reset wire takes a level (R177). -/
  | rst (level : Bool)
  /-- The seed wires take a value (R179, R126). -/
  | seed (w : Nat) (v : Word w)
  /-- The module's output port is observed (R46, R156). -/
  | observe
deriving DecidableEq, Repr

/-- The whole state. -/
structure State where
  gen     : Generator
  /-- The generated hardware; none before a call completes and after one fails (R154). -/
  circuit : Option Circuit
  /-- The emitted text (R17, R148). -/
  text    : Option GeneratedModule
  /-- What the environment does next, oldest first. -/
  inputs  : List Input
deriving DecidableEq, Repr

/-- The reasons the machine stops. -/
inductive Fault where
  /-- Raised by observing the `state` port, or the net `fb`, before the first LOAD_SEED: "Observing `state` while it is
  uninitialised is a fault in the model" (R23), "The model has one fault of its own: `UninitialisedRead`" (R156, D5, U1).
  No operation raises it; safe: the hardware outputs an unspecified value there. -/
  | uninitialisedRead
  /-- Raised by EXPAND when a term of the schedule is empty (U11: "`fault` if ever produced"), which no Polynomial
  gives (R109, R157); safe. -/
  | emptyTerm
deriving DecidableEq, Repr

/-- The reasons the machine has no meaning for a step. -/
inductive Refusal where
  /-- Raised by `exec` for an operation that has no meaning yet; safe. -/
  | notModelled (mnemonic : String)
  /-- Raised by FEEDBACK, LOAD_SEED and STEP when there is no sequential module (R154: a configuration that fails has no
  machine at all); safe. -/
  | noSequentialModule
  /-- Raised by EVAL when there is no parallel module (R154); safe. -/
  | noParallelModule
  /-- Raised when the environment drives or observes a port no module of the state has (R30, R31: the port lists are
  exhaustive); safe. -/
  | noSuchPort
  /-- Raised when a value is presented to a port of another width (R30, R31, R61); safe. -/
  | portWidth
  /-- Raised by the actions of a generation call when what an earlier place of R64's order leaves is missing; no call
  reaches it; safe. -/
  | notElaborated
  /-- Raised for a code, other than a literal, that the decoder rejects; no call reaches it; safe. -/
  | undecodable
deriving DecidableEq, Repr

/-- No call made: DESIGN CHOICE for the inputs without a default (log 10), the defaults of R12 for the others. -/
def GenCall.reset : GenCall :=
  { mode := .sequential, genPoly := [], outWidth := 0, namePrefix := ['v', 'g', 'e', 'n'], suffix := .hex }

/-- Nothing elaborated yet (R27). -/
def Generator.reset : Generator :=
  { call := GenCall.reset, phase := .idle, poly := none, chain := none, sched := none, error := none }

/-- The machine at reset: no module is generated yet and nothing is pending (R20, R27, log 9, log 10). -/
def State.reset : State := { gen := Generator.reset, circuit := none, text := none, inputs := [] }

end Sys2Proof.Machine
end

