-- ==== Sys2Proof/Machine/Ops.lean ====
section
/-! DEFINITION. The shared operations: XOR over an index set, symmetric difference, the one-step shift, the updates of the
state, and ending a generation call with an error (`00_scope.md` R14, `41_sequential_engine.md` R89, `60_exceptions.md` R154). -/

namespace Sys2Proof.Machine

/-- `xorbits(v, S)`: the XOR of `v[i]` over `i` in `S`; 0 for the empty set (R14). -/
def xorbits {w : Nat} (v : Word w) (S : Term) : Bool :=
  S.foldr (fun i b => v.getLsbD i ^^ b) false

/-- `S Δ {i}` on ascending lists. -/
def toggle (i : Nat) : Term → Term
  | [] => [i]
  | j :: S => if i < j then i :: j :: S else if i = j then S else j :: toggle i S

/-- `S Δ U`, the symmetric difference of two sets (R14). -/
def symDiff (S U : Term) : Term := U.foldr toggle S

/-- The word of `n` bits whose bit `i` is `f i`. -/
def bitsOf (f : Nat → Bool) : (n : Nat) → Word n
  | 0 => 0#0
  | n + 1 => BitVec.cons (f n) (bitsOf f n)

/-- One shift of the register: `{v[W-2:0], xorbits(v, T)}`, and `xorbits(v, T)` alone for `W = 1`; every right-hand side is the
value before the edge (R89, R45, R176). -/
def shift {w : Nat} (taps : Term) (v : Word w) : Word w := v.shiftConcat (xorbits v taps)

/-- The output word of a bank of XOR trees: bit `k` is the XOR over tree `k` (R126). -/
def evalTrees {w : Nat} (trees : Schedule) (seed : Word w) (n : Nat) : Word n :=
  bitsOf (fun k => xorbits seed (trees.getD k [])) n

/-- The mode of a generated module (R11). -/
def Circuit.mode : Circuit → Mode
  | .sequential _ => .sequential
  | .parallel _ => .parallel

/-- The configuration a generated module was built from (R20, R21). -/
def Circuit.configuration : Circuit → Configuration
  | .sequential m => .sequential m.poly
  | .parallel m => .parallel m.poly m.n m.pos

/-- The configuration of a call whose literal gave `p`; a call with `N < 1` in parallel mode has none (R21, R153). -/
def configure (call : GenCall) (p : Polynomial) : Option Configuration :=
  match call.mode with
  | .sequential => some (.sequential p)
  | .parallel => if h : 1 ≤ call.outWidth then some (.parallel p call.outWidth.toNat (by omega)) else none

/-- The state with its sequential module replaced. -/
def State.setSequential (s : State) (m : SeqModule) : State := { s with circuit := some (.sequential m) }

/-- The state with its parallel module replaced. -/
def State.setParallel (s : State) (m : ParModule) : State := { s with circuit := some (.parallel m) }

/-- A literal has been parsed: the call goes on to the `out_width` check with a fresh Polynomial (R27, R64). -/
def State.setParsed (s : State) (p : Polynomial) : State :=
  { s with gen := { s.gen with phase := .width, poly := some p, chain := none, sched := none, error := none } }

/-- An OutputSchedule has been computed: the call goes on to emission (R64). -/
def State.setSchedule (s : State) (sc : Schedule) : State :=
  { s with gen := { s.gen with phase := .emit, sched := some sc } }

/-- A generation call ends with an error: the error is reported, and there is no module and no text (R148, R154, R160).
DEDUCED (log 7): the report is the state's `error`. -/
def State.failWith (s : State) (e : ElabError) : State :=
  { s with
    gen := { s.gen with phase := .idle, poly := none, chain := none, sched := none, error := some e }
    circuit := none
    text := none }

/-- What a code the decoder rejects does: a literal with no base prefix is malformed (R74, R151); no other code of a
generation call or of a module is rejected. -/
def rejectCode (c : Code) (s : State) : Host.Outcome State Fault Refusal :=
  match c with
  | .literal lit => .next (s.failWith (.malformedPolynomial lit))
  | _ => .refused .undecodable

end Sys2Proof.Machine
end

