-- ==== Sys2Proof/Machine/CycleExpander.lean ====
section
/-! DEFINITION. EXPAND, the symbolic cycle expander (`42_symbolic_cycle_expander.md` R105). -/

namespace Sys2Proof.Machine

/-- Step 1: cell `i` starts as `{i}` (R105, R106). -/
def initialSnapshot (w : Nat) : Snapshot := (List.range w).map fun i => [i]

/-- Step 2a: the symmetric difference of the tapped cells (R105, R114). -/
def feedbackTerm (taps : Term) (cells : Snapshot) : Term :=
  taps.foldl (fun fb t => symDiff fb (cells.getD t [])) []

/-- Step 2c: cell `i` takes the previous value of cell `i-1`, cell 0 the feedback term (R105). -/
def shiftCells (cells : Snapshot) (fb : Term) : Snapshot := fb :: cells.dropLast

/-- Step 2: `n` cycles from a snapshot, the feedback term recorded before each shift (R105). -/
def expandFrom (taps : Term) : Nat → Snapshot → Schedule
  | 0, _ => []
  | n + 1, cells =>
    feedbackTerm taps cells :: expandFrom taps n (shiftCells cells (feedbackTerm taps cells))

/-- EXPAND(W, T, N) (R105). -/
def expand (p : Polynomial) (n : Nat) : Schedule := expandFrom p.taps n (initialSnapshot p.width)

/-- The snapshot at the start of cycle `c` (R112, `95_test_vectors.md` 2.4). -/
def snapshotAt (p : Polynomial) : Nat → Snapshot
  | 0 => initialSnapshot p.width
  | c + 1 => shiftCells (snapshotAt p c) (feedbackTerm p.taps (snapshotAt p c))

/-- EXPAND: the schedule becomes the call's. A schedule with an empty term is an expander defect and faults (U11, R157); no
Polynomial gives one (R109). -/
def execExpand (p : Polynomial) (n : Nat) (s : State) : Host.Outcome State Fault Refusal :=
  if [] ∈ expand p n then .fault .emptyTerm else .next (s.setSchedule (expand p n))

end Sys2Proof.Machine
end

