-- ==== Sys2Proof/Machine/Flags.lean ====
section
/-! DEFINITION. The block has no flags and no operation writes one (`10_state.md` R29). What stands in their place: the
combinational nets that follow the state (R25, R86, R126), the observation of a port (R156) and the error codes (R150). -/

namespace Sys2Proof.Machine

/-- The feedback net: `xorbits(state, T)`, uninitialised while the register is (R25, R86). -/
def SeqModule.feedbackNet (m : SeqModule) : Option Bool := m.reg.map (fun v => xorbits v m.poly.taps)

/-- The module with its feedback net at the level the register gives (R25, R171). -/
def SeqModule.settle (m : SeqModule) : SeqModule := { m with fb := m.feedbackNet }

/-- The output nets: the XOR trees over the current seed (R126). -/
def ParModule.outputNet (m : ParModule) : Word m.n := evalTrees m.trees m.seed m.n

/-- The module with its output nets at the level the seed gives (R126). -/
def ParModule.settle (m : ParModule) : ParModule := { m with out := m.outputNet }

/-- Observing the `state` port: the register itself (R33), and a fault while it is uninitialised (R23, R156). -/
def SeqModule.readState (m : SeqModule) : Except Fault (Word m.poly.width) :=
  match m.reg with
  | some v => .ok v
  | none => .error .uninitialisedRead

/-- Observing the feedback net, and a fault while the register is uninitialised (R156). -/
def SeqModule.readFeedback (m : SeqModule) : Except Fault Bool :=
  match m.reg with
  | some v => .ok (xorbits v m.poly.taps)
  | none => .error .uninitialisedRead

/-- The environment observes the module's output port. Reading has no side effect (R46); an uninitialised register
faults (R156); the parallel output is always defined (R126). -/
def observe (s : State) : Host.Outcome State Fault Refusal :=
  match s.circuit with
  | some (.sequential m) =>
    match m.readState with
    | .ok _ => .next s
    | .error f => .fault f
  | some (.parallel _) => .next s
  | none => .refused .noSuchPort

/-- The numeric error codes (R150, D17). -/
def ElabError.code : ElabError → Nat
  | .malformedPolynomial _ => 1
  | .zeroPolynomial _ => 2
  | .invalidOutputWidth _ => 3

end Sys2Proof.Machine
end

