-- ==== Sys2Proof/Machine/ParallelGenerator.lean ====
section
/-! DEFINITION. EVAL, the combinational output function (`43_parallel_generator.md` R126). -/

namespace Sys2Proof.Machine

/-- EVAL (R126): the output nets take the XOR trees' values over the current seed. -/
def execEval (s : State) : Host.Outcome State Fault Refusal :=
  match s.circuit with
  | some (.parallel m) => .next (s.setParallel m.settle)
  | _ => .refused .noParallelModule

end Sys2Proof.Machine
end

