-- ==== Sys2Proof/Decode.lean ====
section
/-! DEFINITION. The decoder, total on every code and rejecting by name, and after it the encoder
(`30_encoding.md` R50, R61, R62, R64, R74). -/

namespace Sys2Proof

/-- The literal's base prefix is `0` and `c` (R50, R74). -/
def hasPrefix (c : Char) : Literal → Bool
  | '0' :: d :: _ => d = c
  | _ => false

/-- The parser tries the prefix first (R74): `0b` selects PARSE_BIN only, `0x` PARSE_HEX only; the digits are the
operation's own check (R71, R73). -/
def decodeLiteral (lit : Literal) : Except DecodeError Instr :=
  if hasPrefix 'b' lit then .ok (.parseBin lit)
  else if hasPrefix 'x' lit then .ok (.parseHex lit)
  else .error (.noPrefix lit)

/-- `rst = 1` selects LOAD_SEED and `rst = 0` selects STEP; no value of `seed` changes which (R62). -/
def decodeRecord (w : Nat) (bits : Word (w + 1)) : Except DecodeError Instr :=
  if w = 0 then .error .noSeedBits
  else if bits.getLsbD w then .ok (.loadSeed w (bits.setWidth w))
  else .ok (.step w (bits.setWidth w))

/-- The third operation of a generation call (R64): EXPAND in parallel mode. -/
def decodeElaborate (mode : Mode) (p : Polynomial) (n : Nat) : Except DecodeError Instr :=
  match mode with
  | .sequential => .error .noOperation
  | .parallel => .ok (.expand p n)

/-- The decoder. -/
def decode : Code → Except DecodeError Instr
  | .literal lit => decodeLiteral lit
  | .record w bits => decodeRecord w bits
  | .elaborate mode p n => decodeElaborate mode p n
  | .always .sequential => .ok .feedback
  | .always .parallel => .ok .eval

/-- The record `{rst, seed}` of `w + 1` bits, `rst` in the high bit (R61). -/
def recordOf {w : Nat} (rst : Bool) (seed : Word w) : Word (w + 1) := BitVec.cons rst seed

/-- The encoder: the code that selects an operation. -/
def encode : Instr → Code
  | .parseBin lit => .literal lit
  | .parseHex lit => .literal lit
  | .feedback => .always .sequential
  | .loadSeed w seed => .record w (recordOf true seed)
  | .step w seed => .record w (recordOf false seed)
  | .expand p n => .elaborate .parallel p n
  | .eval => .always .parallel

/-- Byte `j` of a number, byte 0 the least significant. -/
def byteAt (w j : Nat) : Nat := (w >>> (8 * j)) % 256

/-- DESIGN CHOICE (log 5): the characters of a literal numbered as the table numbers its prefix. The prefix is ONE 16-bit
unit whose high byte is character 0 (`0x3062` is `0` then `b`); character `j >= 2` is byte `j`; the string ends before the
first zero byte. -/
def charsOfTableWord (nbits w : Nat) : Literal :=
  let bytes := byteAt w 1 :: byteAt w 0 :: (List.range (nbits / 8 - 2)).map (fun j => byteAt w (j + 2))
  (bytes.takeWhile (· ≠ 0)).map Char.ofNat

/-- The operation the decoder reads from a row's bits. Only the literals have bits the table numbers; no word shorter than
the 16-bit prefix is one (log 5). -/
def decodeTableWord (nbits w : Nat) : Option Instr :=
  match decode (.literal (charsOfTableWord nbits w)) with
  | .ok i => some i
  | .error _ => none

end Sys2Proof
end

