-- ==== Sys2Proof/Machine/Operands.lean ====
section
/-! DEFINITION. The operand forms: the digits of a literal (`30_encoding.md` R51 to R53) and the input ports of a module
(`10_state.md` R30, R31). -/

namespace Sys2Proof.Machine

/-- A binary digit's value (R51, R52). -/
def binDigit (c : Char) : Option Nat :=
  if c = '0' then some 0 else if c = '1' then some 1 else none

/-- A hexadecimal digit's value, either letter case (R51, R53). -/
def hexDigit (c : Char) : Option Nat :=
  if '0' ≤ c ∧ c ≤ '9' then some (c.toNat - 48)
  else if 'a' ≤ c ∧ c ≤ 'f' then some (c.toNat - 87)
  else if 'A' ≤ c ∧ c ≤ 'F' then some (c.toNat - 55)
  else none

/-- The value of a digit string read after a string of value `acc`: the last digit is the least significant (R52, R53);
nothing where a character is no digit (R56). -/
def assemble (base : Nat) (digit : Char → Option Nat) (acc : Nat) : List Char → Option Nat
  | [] => some acc
  | c :: cs =>
    match digit c with
    | some d => assemble base digit (acc * base + d) cs
    | none => none

/-- The value of the literal `0`, `c`, digits: one or more digits, the whole string matched (R51). -/
def literalValue (c : Char) (base : Nat) (digit : Char → Option Nat) : Literal → Option Nat
  | '0' :: d :: ds => if d = c ∧ ds ≠ [] then assemble base digit 0 ds else none
  | _ => none

/-- A value presented to a port of `w` bits: the port takes a value of its own width only (R30, R31; log 12). -/
def portValue {v : Nat} (x : Word v) (w : Nat) : Option (Word w) :=
  if v = w then some (x.setWidth w) else none

/-- The record the sequential module samples at an active edge: its `rst` and `seed` wires (R61). -/
def SeqModule.sampled (m : SeqModule) : Code := .record m.poly.width (recordOf m.rst m.seed)

end Sys2Proof.Machine
end

