-- ==== Sys2Proof/Machine/PolynomialModel.lean ====
section
/-! DEFINITION. PARSE_BIN and PARSE_HEX (`40_polynomial_model.md` R70 to R75). -/

namespace Sys2Proof.Machine

/-- The set bits of a value `v > 0`, ascending (R72). -/
def setBits (v : Nat) : Term := (List.range (v.log2 + 1)).filter v.testBit

/-- The laws of the result (R76): what FromValue gives for `v > 0` is a Polynomial. -/
theorem setBits_legal {v : Nat} (h : v ≠ 0) : decide (LegalTaps (v.log2 + 1) (setBits v)) = true := by
  refine decide_eq_true ⟨Nat.succ_pos _, List.pairwise_lt_range.filter _, fun t ht => ?_, ?_⟩
  · exact List.mem_range.mp (List.mem_of_mem_filter ht)
  · exact List.mem_filter.mpr ⟨List.mem_range.mpr (by omega), Nat.testBit_log2 h⟩

/-- FromValue (R72): the width is the index of the most-significant set bit plus one, the taps are the set bits. -/
def fromValue (lit : Literal) (v : Nat) : Except ElabError Polynomial :=
  if h : v = 0 then .error (.zeroPolynomial lit)
  else .ok { width := v.log2 + 1, taps := setBits v, legal := setBits_legal h }

/-- A parsed value, or the literal malformed (R71, R73, R74). -/
def fromLiteral (lit : Literal) (value : Option Nat) : Except ElabError Polynomial :=
  match value with
  | some v => fromValue lit v
  | none => .error (.malformedPolynomial lit)

/-- The parse result becomes the call's Polynomial, or ends the call (R154). -/
def finishParse (r : Except ElabError Polynomial) (s : State) : Host.Outcome State Fault Refusal :=
  match r with
  | .ok p => .next (s.setParsed p)
  | .error e => .next (s.failWith e)

/-- The value parse of `0b` literals (R71). -/
def parseBinary (lit : Literal) : Except ElabError Polynomial :=
  fromLiteral lit (literalValue 'b' 2 binDigit lit)

/-- The value parse of `0x` literals (R73). -/
def parseHexadecimal (lit : Literal) : Except ElabError Polynomial :=
  fromLiteral lit (literalValue 'x' 16 hexDigit lit)

/-- PARSE_BIN (R71). -/
def execParseBin (lit : Literal) (s : State) : Host.Outcome State Fault Refusal :=
  finishParse (parseBinary lit) s

/-- PARSE_HEX (R73). -/
def execParseHex (lit : Literal) (s : State) : Host.Outcome State Fault Refusal :=
  finishParse (parseHexadecimal lit) s

end Sys2Proof.Machine
end

