-- ==== Sys2Proof/Machine/SequentialEngine.lean ====
section
/-! DEFINITION. FEEDBACK, LOAD_SEED and STEP (`41_sequential_engine.md` R86 to R89). -/

namespace Sys2Proof.Machine

/-- An operation of the sequential module: it replaces the module, and has no meaning without one (R154). -/
def withSequential (s : State) (f : SeqModule → Host.Outcome State Fault Refusal) : Host.Outcome State Fault Refusal :=
  match s.circuit with
  | some (.sequential m) => f m
  | _ => .refused .noSequentialModule

/-- The register takes the seed and the bookkeeping restarts (R88); the feedback net follows (R171). -/
def SeqModule.load (m : SeqModule) (v : Word m.poly.width) : SeqModule :=
  SeqModule.settle { m with reg := some v, cycle := some 0 }

/-- One LFSR shift (R89); from an uninitialised register the result is uninitialised (R23), and so is the bookkeeping (R34);
the feedback net follows (R171). -/
def SeqModule.advance (m : SeqModule) : SeqModule :=
  SeqModule.settle { m with reg := m.reg.map (shift m.poly.taps), cycle := m.cycle.map (· + 1) }

/-- FEEDBACK (R86): the net takes the XOR of the register's tapped bits. -/
def execFeedback (s : State) : Host.Outcome State Fault Refusal :=
  withSequential s fun m => .next (s.setSequential m.settle)

/-- LOAD_SEED (R88). -/
def execLoadSeed (w : Nat) (seed : Word w) (s : State) : Host.Outcome State Fault Refusal :=
  withSequential s fun m =>
    match portValue seed m.poly.width with
    | some v => .next (s.setSequential (m.load v))
    | none => .refused .portWidth

/-- STEP (R89); the record's seed bits are ignored (R179), but a record of another width is none of this module's (R61). -/
def execStep (w : Nat) (seed : Word w) (s : State) : Host.Outcome State Fault Refusal :=
  withSequential s fun m =>
    match portValue seed m.poly.width with
    | some _ => .next (s.setSequential m.advance)
    | none => .refused .portWidth

end Sys2Proof.Machine
end

