-- ==== Sys2Proof/Machine/Dispatch.lean ====
section
/-! DEFINITION. One arm for each operation. -/

namespace Sys2Proof.Machine

def exec (i : Instr) (s : State) : Host.Outcome State Fault Refusal :=
  match i with
  | .parseBin lit => Sys2Proof.Machine.execParseBin lit s
  | .parseHex lit => Sys2Proof.Machine.execParseHex lit s
  | .feedback => Sys2Proof.Machine.execFeedback s
  | .loadSeed w seed => Sys2Proof.Machine.execLoadSeed w seed s
  | .step w seed => Sys2Proof.Machine.execStep w seed s
  | .expand p n => Sys2Proof.Machine.execExpand p n s
  | .eval => Sys2Proof.Machine.execEval s

end Sys2Proof.Machine
end

