-- ==== Sys2Proof/Machine/Emitter.lean ====
section
/-! DEFINITION. Emission: the generated module's text, as far as the spec fixes it, and the generated hardware at power-on
(`44_netlist_rendering.md` R140 to R149, `10_state.md` R34). -/

namespace Sys2Proof.Machine

/-- The decimal spelling of a number. -/
def decimal (n : Nat) : List Char := Nat.toDigits 10 n

/-- The human-readable polynomial: exponents `t+1` from highest to lowest, then the constant (R143, R77; D16: tap 0 is
`x^1`). -/
def renderPolynomial (taps : Term) : List Char :=
  taps.foldl (fun acc t => ['x', '^'] ++ decimal (t + 1) ++ [' ', '+', ' '] ++ acc) ['1']

/-- An XOR chain over operands: a chain of one is the bare operand (R141, R142, R149). -/
def xorChain (operand : Nat → Token) (S : Term) : List Token := (S.map operand).intersperse .xor

/-- The ports of a sequential module (R30). -/
def sequentialPorts (w : Nat) : List Port :=
  [⟨.clk, .input, 1⟩, ⟨.rst, .input, 1⟩, ⟨.seed, .input, w⟩, ⟨.state, .output, w⟩]

/-- The ports of a parallel module (R31). -/
def parallelPorts (w n : Nat) : List Port := [⟨.seed, .input, w⟩, ⟨.out, .output, n⟩]

/-- The informational module name (R147); its last part is a free value (log 13). -/
def moduleName (call : GenCall) : Configuration → List Char
  | .sequential p => call.namePrefix ++ ['_', 'l', 'f', 's', 'r', '_'] ++ decimal p.width ++ ['_'] ++ Config.tapBitString p
  | .parallel p n _ => call.namePrefix ++ ['_', 'r', 'a', 'n', 'd', '_'] ++ decimal p.width ++ ['_'] ++ decimal n ++ ['_'] ++
      Config.polynomialRendering p call.suffix

/-- The banner: the artifact is generated and must not be hand-edited, the bit-width, the polynomial (R146). -/
def banner (p : Polynomial) : Banner :=
  { statesGenerated := true, statesNoHandEdit := true, width := p.width, polynomial := renderPolynomial p.taps }

/-- The text of a sequential module: one feedback equation, one clocked process (R144). -/
def sequentialText (call : GenCall) (p : Polynomial) (chain : Term) : GeneratedModule :=
  { opening := banner p
    name := moduleName call (.sequential p)
    ports := sequentialPorts p.width
    body := [.feedbackEquation (xorChain .regBit chain), .clockedResetShift] }

/-- The assignments of output bits `k`, `k+1`, ... (R145, R125). The rules give one independent statement a bit and no order
among them (R130); DESIGN CHOICE (log 28): they stand by ascending `k`. -/
def assignments (k : Nat) : Schedule → List Statement
  | [] => []
  | S :: sc => .assignOut k (xorChain .seedBit S) :: assignments (k + 1) sc

/-- The text of a parallel module: exactly `N` assignments (R145). -/
def parallelText (call : GenCall) (p : Polynomial) (n : Nat) (pos : 1 ≤ n) (sc : Schedule) : GeneratedModule :=
  { opening := banner p
    name := moduleName call (.parallel p n pos)
    ports := parallelPorts p.width n
    body := assignments 0 sc }

/-- A sequential module at power-on: the register, the net and the bookkeeping are uninitialised (R23, R34).
DESIGN CHOICE (log 3): the input wires are at 0 until the environment drives them. -/
def SeqModule.powerOn (p : Polynomial) : SeqModule :=
  { poly := p, clk := false, rst := false, seed := 0#p.width, reg := none, fb := none, cycle := none }

/-- A parallel module at power-on: it holds nothing, and its outputs follow its seed wires (R26, R126), which are at 0 until
the environment drives them (DESIGN CHOICE, log 3). -/
def ParModule.powerOn (p : Polynomial) (n : Nat) (pos : 1 ≤ n) (sc : Schedule) : ParModule :=
  ParModule.settle { poly := p, n := n, pos := pos, trees := sc, seed := 0#p.width, out := 0#n }

/-- The call ends with a module and its text; what it built on the way is gone (R27, R148). -/
def State.complete (s : State) (c : Circuit) (t : GeneratedModule) : State :=
  { s with
    gen := { s.gen with phase := .idle, poly := none, chain := none, sched := none }
    circuit := some c
    text := some t }

/-- Emission (R64, R140): the last place of a generation call. It runs for a legal configuration only (R21). -/
def emit (s : State) : Host.Outcome State Fault Refusal :=
  match s.gen.poly.bind (configure s.gen.call), s.gen.chain, s.gen.sched with
  | some (.sequential p), some chain, _ =>
    .next (s.complete (.sequential (SeqModule.powerOn p)) (sequentialText s.gen.call p chain))
  | some (.parallel p n pos), _, some sc =>
    .next (s.complete (.parallel (ParModule.powerOn p n pos sc)) (parallelText s.gen.call p n pos sc))
  | _, _, _ => .refused .notElaborated

end Sys2Proof.Machine
end

