-- ==== Sys2Proof/Machine/Fetch.lean ====
section
/-! DEFINITION. What runs next: the places of a generation call in the order of R64, the edges of a sequential module
(`41_sequential_engine.md` R87, `70_reset_and_hazards.md` R177), and the always-active nets (`30_encoding.md` R62, R63). -/

namespace Sys2Proof.Machine

/-- What a step does: it runs the operation a code selects, in a state from which the event has been taken, or it is an
action that is no row of the table. -/
inductive Fetched where
  | run (c : Code) (s : State)
  | act (o : Host.Outcome State Fault Refusal)

/-- A generation call begins: everything of it is fresh (R27), and this state is now that call's machine (R35; DESIGN
CHOICE, log 8). -/
def State.startCall (s : State) (call : GenCall) : State :=
  { s with
    gen := { call := call, phase := .parse, poly := none, chain := none, sched := none, error := none }
    circuit := none
    text := none }

/-- The call goes on to its third place (R64). -/
def State.enterBuild (s : State) : State := { s with gen := { s.gen with phase := .build } }

/-- The `out_width` check: parallel mode only, `N < 1` is an error (R153, R155). -/
def checkWidth (s : State) : State :=
  match s.gen.call.mode with
  | .sequential => s.enterBuild
  | .parallel =>
    if s.gen.call.outWidth < 1 then s.failWith (.invalidOutputWidth s.gen.call.outWidth) else s.enterBuild

/-- Feedback synthesis: the feedback expression is the list of the taps, in ascending order (R85, R142). -/
def synthesize (p : Polynomial) (s : State) : State :=
  { s with gen := { s.gen with phase := .emit, chain := some p.taps } }

/-- The third place of R64: feedback synthesis in sequential mode, EXPAND over `N` cycles in parallel mode. -/
def fetchBuild (s : State) : Fetched :=
  match s.gen.poly, s.gen.call.mode with
  | none, _ => .act (.refused .notElaborated)
  | some p, .sequential => .act (.next (synthesize p s))
  | some p, .parallel => .run (.elaborate .parallel p s.gen.call.outWidth.toNat) s

/-- An instant without an active edge: only the module's combinational net runs (R32, R62, R63); with no module nothing
happens (log 26). -/
def fetchNets (s : State) : Fetched :=
  match s.circuit with
  | some c => .run (.always c.mode) s
  | none => .act (.next s)

/-- The clock wire takes a level: a rise is an active edge and samples the record, any other level is none (R32, R61,
D9). -/
def fetchClock (level : Bool) (s : State) : Fetched :=
  match s.circuit with
  | some (.sequential m) =>
    if level && !m.clk then .run m.sampled (s.setSequential { m with clk := level })
    else fetchNets (s.setSequential { m with clk := level })
  | _ => .act (.refused .noSuchPort)

/-- The reset wire takes a level, which is sampled at the next active edge only (R177). -/
def fetchReset (level : Bool) (s : State) : Fetched :=
  match s.circuit with
  | some (.sequential m) => fetchNets (s.setSequential { m with rst := level })
  | _ => .act (.refused .noSuchPort)

/-- The seed wires take a value (R30, R31). -/
def fetchSeed (w : Nat) (x : Word w) (s : State) : Fetched :=
  match s.circuit with
  | some (.sequential m) =>
    match portValue x m.poly.width with
    | some v => fetchNets (s.setSequential { m with seed := v })
    | none => .act (.refused .portWidth)
  | some (.parallel m) =>
    match portValue x m.poly.width with
    | some v => fetchNets (s.setParallel { m with seed := v })
    | none => .act (.refused .portWidth)
  | none => .act (.refused .noSuchPort)

/-- The oldest pending event, taken from the list. -/
def fetchInput (s : State) : Fetched :=
  match s.inputs with
  | [] => fetchNets s
  | .generate call :: rest => .act (.next ({ s with inputs := rest }.startCall call))
  | .clk level :: rest => fetchClock level { s with inputs := rest }
  | .rst level :: rest => fetchReset level { s with inputs := rest }
  | .seed w x :: rest => fetchSeed w x { s with inputs := rest }
  | .observe :: rest => .act (observe { s with inputs := rest })

/-- What runs next. A generation call in progress goes first: a module takes no event before it exists (R64). -/
def fetch (s : State) : Fetched :=
  match s.gen.phase with
  | .idle => fetchInput s
  | .parse => .run (.literal s.gen.call.genPoly) s
  | .width => .act (.next (checkWidth s))
  | .build => fetchBuild s
  | .emit => .act (emit s)

/-- A literal placed where the next step reads it: a generation call with that literal begins (log 9). -/
def State.placeLiteral (s : State) (lit : Literal) : State :=
  s.startCall { s.gen.call with genPoly := lit }

end Sys2Proof.Machine
end

