-- ==== Sys2Proof/Machine/Step.lean ====
section
/-! DEFINITION. One step: fetch, decode, run. -/

namespace Sys2Proof.Machine

/-- One step of the machine. -/
def step (s : State) : Host.Outcome State Fault Refusal :=
  match fetch s with
  | .act o => o
  | .run c s' =>
    match decode c with
    | .ok i => exec i s'
    | .error _ => rejectCode c s'

/-- The instruction whose bits are `w` placed where the next step fetches: a generation call with that literal begins
(log 5, log 9). -/
def State.withFetchWord (s : State) (nbits w : Nat) : State := s.placeLiteral (charsOfTableWord nbits w)

end Sys2Proof.Machine
end

