-- ==== Sys2Proof/Safety.lean ====
section
/-! DEFINITION. The invariant of the machine: what every state a run reaches satisfies, in the terms claims use. -/

namespace Sys2Proof.Machine

/-- A sequential module is sound: its net is at the level the register gives (R25), and the bookkeeping is defined exactly
while the register is (R34). Its configuration is legal by its type (R21). -/
structure SeqModule.Sound (m : SeqModule) : Prop where
  net   : m.fb = m.feedbackNet
  count : m.cycle.isSome = m.reg.isSome

/-- A parallel module is sound: its trees are the expander's (R125), and its outputs are at the level the seed gives (R126).
Its configuration is legal by its type (R21). -/
structure ParModule.Sound (m : ParModule) : Prop where
  trees : m.trees = expand m.poly m.n
  net   : m.out = m.outputNet

/-- A module is sound. -/
def Circuit.Sound : Circuit → Prop
  | .sequential m => m.Sound
  | .parallel m => m.Sound

/-- What a generation call holds at each of its places (R27, R64). -/
structure Generator.Sound (g : Generator) : Prop where
  fresh : g.phase = .idle ∨ g.phase = .parse → g.poly = none
  parsed : g.phase = .width ∨ g.phase = .build ∨ g.phase = .emit → g.poly.isSome
  early : g.phase ≠ .emit → g.chain = none ∧ g.sched = none
  checked : g.phase = .build ∨ g.phase = .emit → g.call.mode = .parallel → 1 ≤ g.call.outWidth
  chain : g.phase = .emit → g.call.mode = .sequential → g.chain = g.poly.map Polynomial.taps
  sched : g.phase = .emit → g.call.mode = .parallel → g.sched = g.poly.map (fun p => expand p g.call.outWidth.toNat)

/-- The invariant: the call and the module are sound; a module exists only between calls and never beside an error; a module
and its text exist together (R148, R154). -/
structure State.Inv (s : State) : Prop where
  gen : s.gen.Sound
  circuit : ∀ c, s.circuit = some c → c.Sound
  busy : s.gen.phase ≠ .idle → s.circuit = none ∧ s.gen.error = none
  failed : s.gen.error.isSome → s.circuit = none
  whole : s.text.isSome = s.circuit.isSome

/-! The terms claims use. -/

/-- The parity of the number of members of `S` that `f` holds of: the XOR of `f` over `S` (R14). -/
def parity (S : Term) (f : Nat → Bool) : Bool := decide ((S.filter f).length % 2 = 1)

/-- `s_c`: the register after `c` STEPs from `v` (R94, R113). -/
def stateAfter {w : Nat} (taps : Term) (v : Word w) : Nat → Word w
  | 0 => v
  | c + 1 => shift taps (stateAfter taps v c)

/-- `y_c`: the feedback bit at step `c` (R94). -/
def feedbackAt {w : Nat} (taps : Term) (v : Word w) (c : Nat) : Bool := xorbits (stateAfter taps v c) taps

/-- `k` times the same operation, stopping at the first fault or refusal. -/
def repeatExec (i : Instr) : Nat → State → Host.Outcome State Fault Refusal
  | 0, s => .next s
  | k + 1, s =>
    match exec i s with
    | .next s' => repeatExec i k s'
    | .fault f => .fault f
    | .refused r => .refused r

/-- `k` steps of the machine, stopping at the first fault or refusal. -/
def runSteps : Nat → State → Host.Outcome State Fault Refusal
  | 0, s => .next s
  | k + 1, s =>
    match step s with
    | .next s' => runSteps k s'
    | .fault f => .fault f
    | .refused r => .refused r

/-- LOAD_SEED of `seed`, then `k` STEPs whose records carry the seed bits `x`. -/
def loadThenSteps (w : Nat) (seed x : Word w) (k : Nat) (s : State) : Host.Outcome State Fault Refusal :=
  match exec (.loadSeed w seed) s with
  | .next s' => repeatExec (.step w x) k s'
  | .fault f => .fault f
  | .refused r => .refused r

/-- The digits of a binary literal with their values (R51, R52). -/
def binaryDigits : List (Char × Nat) := [('0', 0), ('1', 1)]

/-- The digits of a hexadecimal literal with their values, both letter cases (R51, R53). -/
def hexDigits : List (Char × Nat) :=
  [('0', 0), ('1', 1), ('2', 2), ('3', 3), ('4', 4), ('5', 5), ('6', 6), ('7', 7), ('8', 8), ('9', 9)] ++
  [('a', 10), ('b', 11), ('c', 12), ('d', 13), ('e', 14), ('f', 15)] ++
  [('A', 10), ('B', 11), ('C', 12), ('D', 13), ('E', 14), ('F', 15)]

/-- The literal `0`, base character, digits (R51). -/
def literalText (c : Char) (ds : List (Char × Nat)) : Literal := '0' :: c :: ds.map Prod.fst

/-- The value of a digit string, its last digit the least significant (R52, R53). -/
def digitsValue (base : Nat) (ds : List (Char × Nat)) : Nat := Nat.ofDigits base (ds.map Prod.snd).reverse

/-- What a literal parses to (R74): the prefix selects the base, any other string is malformed. -/
def parseLiteral (lit : Literal) : Except ElabError Polynomial :=
  if hasPrefix 'b' lit then parseBinary lit
  else if hasPrefix 'x' lit then parseHexadecimal lit
  else .error (.malformedPolynomial lit)

end Sys2Proof.Machine

namespace Sys2Proof

/-- `p` is the Polynomial of the value `v`: `v` is `W` bits long, and the taps are its set bits (R54, R55, R72). -/
structure Polynomial.IsOf (p : Polynomial) (v : Nat) : Prop where
  pos   : 0 < p.width
  low   : 2 ^ (p.width - 1) ≤ v
  high  : v < 2 ^ p.width
  order : p.taps.Pairwise (· < ·)
  taps  : ∀ i, i ∈ p.taps ↔ v.testBit i = true

/-- The STEP map as a matrix over GF(2): row 0 has ones at the columns in `T`, row `i >= 1` has one at column `i-1`
(R111). -/
def Polynomial.stepMatrix (p : Polynomial) : Matrix (Fin p.width) (Fin p.width) (ZMod 2) := fun i j =>
  if i.val = 0 then (if j.val ∈ p.taps then 1 else 0) else if j.val + 1 = i.val then 1 else 0

end Sys2Proof
end

