-- ==== Sys2Proof/Certificates/Slice0/Obligations.lean ====
section
/-! DEFINITION. The statements about the machine, from the spec's numbered rules. `step`, `exec` and `fetch` are the machine's;
`stateAfter`, `parity`, `digitsValue` and the other terms used only here are in Safety.lean. -/

open Sys2Proof Sys2Proof.Machine

/-! ## Encodings -/

/-- Codes written out bit by bit from the spec: `0b110110` and `0x36` (R50), the records `1 | 101011` and `0 | 111111` of a
six-bit module (R61, R62), and the codes without bits (R62, R63, R64). -/
def Obligations.SpecCodesDecode : Prop :=
  decode (.literal ['0', 'b', '1', '1', '0', '1', '1', '0']) = .ok (.parseBin ['0', 'b', '1', '1', '0', '1', '1', '0']) ∧
  decode (.literal ['0', 'x', '3', '6']) = .ok (.parseHex ['0', 'x', '3', '6']) ∧
  decode (.record 6 0b1101011#7) = .ok (.loadSeed 6 0b101011#6) ∧
  decode (.record 6 0b0111111#7) = .ok (.step 6 0b111111#6) ∧
  decode (.elaborate .parallel ⟨6, [1, 2, 4, 5], rfl⟩ 8) = .ok (.expand ⟨6, [1, 2, 4, 5], rfl⟩ 8) ∧
  decode (.always .sequential) = .ok .feedback ∧
  decode (.always .parallel) = .ok .eval

/-- Every well-formed operation decodes from its code, each operand kept whole (R50, R61, R62, R64). -/
def Obligations.DecodeOfEncode : Prop :=
  ∀ i : Instr, i.wf = true → decode (encode i) = .ok i

/-- Each operation has one code: what decodes to an operation is that operation's code. It rests on the model's choice of
operands: STEP keeps its record's ignored seed bits (log 22), and a parse keeps the whole literal (log 6). -/
def Obligations.EncodeOfDecode : Prop :=
  ∀ (c : Code) (i : Instr), decode c = .ok i → encode i = c

/-- The select bit alone chooses the operation of a record: `rst = 1` is LOAD_SEED, `rst = 0` is STEP, whatever the seed
bits; the operand is those bits (R61, R62). -/
def Obligations.RecordSelectsByReset : Prop :=
  ∀ (w : Nat) (seed : Word w), 0 < w →
    decode (.record w (BitVec.cons true seed)) = .ok (.loadSeed w seed) ∧
    decode (.record w (BitVec.cons false seed)) = .ok (.step w seed)

/-! ## Polynomial model -/

/-- PARSE_BIN. A literal of one or more binary digits and value `v > 0`: the call's Polynomial is `v`'s, and nothing outside the
call changes. Value 0: the call ends with ZeroPolynomial, with no module and no text. Any other string: it ends with
MalformedPolynomial (R71, R72, R152). -/
def Obligations.ParseBinResult : Prop :=
  ∀ s : State,
    (∀ ds : List (Char × Nat), ds ≠ [] → (∀ d ∈ ds, d ∈ binaryDigits) →
      (0 < digitsValue 2 ds → ∃ p : Sys2Proof.Polynomial, p.IsOf (digitsValue 2 ds) ∧
        exec (.parseBin (literalText 'b' ds)) s =
          .next { s with gen := { s.gen with phase := .width, poly := some p, chain := none, sched := none, error := none } }) ∧
      (digitsValue 2 ds = 0 →
        exec (.parseBin (literalText 'b' ds)) s =
          .next { s with
            gen := { s.gen with phase := .idle, poly := none, chain := none, sched := none
                                error := some (.zeroPolynomial (literalText 'b' ds)) }
            circuit := none, text := none })) ∧
    (∀ lit : Literal, (∀ ds : List (Char × Nat), ds ≠ [] → (∀ d ∈ ds, d ∈ binaryDigits) → lit ≠ literalText 'b' ds) →
      exec (.parseBin lit) s =
        .next { s with
          gen := { s.gen with phase := .idle, poly := none, chain := none, sched := none
                              error := some (.malformedPolynomial lit) }
          circuit := none, text := none })

/-- PARSE_HEX, digits of either letter case: the same three outcomes in base 16 (R73, R53, R152). -/
def Obligations.ParseHexResult : Prop :=
  ∀ s : State,
    (∀ ds : List (Char × Nat), ds ≠ [] → (∀ d ∈ ds, d ∈ hexDigits) →
      (0 < digitsValue 16 ds → ∃ p : Sys2Proof.Polynomial, p.IsOf (digitsValue 16 ds) ∧
        exec (.parseHex (literalText 'x' ds)) s =
          .next { s with gen := { s.gen with phase := .width, poly := some p, chain := none, sched := none, error := none } }) ∧
      (digitsValue 16 ds = 0 →
        exec (.parseHex (literalText 'x' ds)) s =
          .next { s with
            gen := { s.gen with phase := .idle, poly := none, chain := none, sched := none
                                error := some (.zeroPolynomial (literalText 'x' ds)) }
            circuit := none, text := none })) ∧
    (∀ lit : Literal, (∀ ds : List (Char × Nat), ds ≠ [] → (∀ d ∈ ds, d ∈ hexDigits) → lit ≠ literalText 'x' ds) →
      exec (.parseHex lit) s =
        .next { s with
          gen := { s.gen with phase := .idle, poly := none, chain := none, sched := none
                              error := some (.malformedPolynomial lit) }
          circuit := none, text := none })

/-- A literal with valid prefix and invalid digits is malformed in a whole step, and is not read in the other base (R56,
R74). -/
def Obligations.BadDigitsEndTheCall : Prop :=
  ∀ (s : State) (cs : List Char), s.gen.phase = .parse →
    (s.gen.call.genPoly = '0' :: 'b' :: cs ∧ (cs = [] ∨ ∃ c ∈ cs, c ∉ binaryDigits.map Prod.fst) ∨
      s.gen.call.genPoly = '0' :: 'x' :: cs ∧ (cs = [] ∨ ∃ c ∈ cs, c ∉ hexDigits.map Prod.fst)) →
    ∃ t, step s = .next t ∧ t.gen.error = some (.malformedPolynomial s.gen.call.genPoly) ∧ t.gen.phase = .idle ∧
      t.circuit = none ∧ t.text = none ∧ t.inputs = s.inputs

/-- A string with neither prefix is no operation, and a call with it ends as malformed (R74, R151). -/
def Obligations.UnprefixedLiteralEndsTheCall : Prop :=
  ∀ s : State, s.gen.phase = .parse →
    (∀ ds, s.gen.call.genPoly ≠ '0' :: 'b' :: ds ∧ s.gen.call.genPoly ≠ '0' :: 'x' :: ds) →
    decode (.literal s.gen.call.genPoly) = .error (.noPrefix s.gen.call.genPoly) ∧
    ∃ t, step s = .next t ∧ t.gen.error = some (.malformedPolynomial s.gen.call.genPoly) ∧ t.gen.phase = .idle ∧
      t.circuit = none ∧ t.text = none ∧ t.inputs = s.inputs

/-- Every string is exactly one of three things: a literal that decodes to a Polynomial of R76's laws, a zero literal, or a
malformed one (R65, R76). -/
def Obligations.EveryLiteralHasOneOutcome : Prop :=
  ∀ s : State, s.gen.phase = .parse → ∃ t, step s = .next t ∧ t.inputs = s.inputs ∧
    ((∃ p : Sys2Proof.Polynomial, p.Valid ∧ t.gen.poly = some p ∧ t.gen.error = none) ∨
      (t.gen.poly = none ∧ t.gen.error = some (.zeroPolynomial s.gen.call.genPoly)) ∨
      (t.gen.poly = none ∧ t.gen.error = some (.malformedPolynomial s.gen.call.genPoly)))

/-- Two literals of equal value, in either base and with any leading zeros, leave the same state (R59). -/
def Obligations.EquivalentLiterals : Prop :=
  ∀ (ds es fs : List (Char × Nat)) (s : State), ds ≠ [] → es ≠ [] → fs ≠ [] →
    (∀ d ∈ ds, d ∈ binaryDigits) → (∀ e ∈ es, e ∈ hexDigits) → (∀ f ∈ fs, f ∈ binaryDigits) →
    0 < digitsValue 2 ds → digitsValue 2 ds = digitsValue 16 es → digitsValue 2 ds = digitsValue 2 fs →
    ∃ t, exec (.parseBin (literalText 'b' ds)) s = .next t ∧ exec (.parseHex (literalText 'x' es)) s = .next t ∧
      exec (.parseBin (literalText 'b' fs)) s = .next t

/-! ## Sequential engine -/

/-- FEEDBACK: the net takes the XOR of the register's bits at the taps, and is uninitialised while the register is; nothing
else changes (R86, R25). -/
def Obligations.FeedbackNet : Prop :=
  ∀ (s : State) (m : SeqModule), s.circuit = some (.sequential m) →
    (∀ v, m.reg = some v →
      exec .feedback s =
        .next { s with circuit := some (.sequential { m with fb := some (parity m.poly.taps fun t => v.getLsbD t) }) }) ∧
    (m.reg = none → exec .feedback s = .next { s with circuit := some (.sequential { m with fb := none }) })

/-- LOAD_SEED, from any register, initialised or not: the register is the seed, the bookkeeping is 0, the net follows, and
nothing else changes (R88, R24, R171). -/
def Obligations.LoadSeedResult : Prop :=
  ∀ (s : State) (m : SeqModule) (v : Word m.poly.width), s.circuit = some (.sequential m) →
    exec (.loadSeed m.poly.width v) s =
      .next { s with circuit := some (.sequential
        { m with reg := some v, cycle := some 0, fb := some (parity m.poly.taps fun t => v.getLsbD t) }) }

/-- STEP. From a register `v`, bit by bit: bit 0 takes the XOR of the pre-edge bits at the taps, bit `i` the pre-edge bit `i-1`;
`cycle` counts, the net follows, and nothing else changes. From an uninitialised register: the register and the net stay
uninitialised (R89, R23, R45, R176). -/
def Obligations.StepResult : Prop :=
  ∀ (s : State) (m : SeqModule) (x : Word m.poly.width), s.circuit = some (.sequential m) →
    (∀ v, m.reg = some v → ∃ v' : Word m.poly.width,
      exec (.step m.poly.width x) s =
        .next { s with circuit := some (.sequential
          { m with reg := some v', cycle := m.cycle.map (· + 1), fb := some (parity m.poly.taps fun t => v'.getLsbD t) }) } ∧
      ∀ i, i < m.poly.width →
        v'.getLsbD i = if i = 0 then parity m.poly.taps (fun t => v.getLsbD t) else v.getLsbD (i - 1)) ∧
    (m.reg = none →
      exec (.step m.poly.width x) s =
        .next { s with circuit := some (.sequential { m with reg := none, cycle := m.cycle.map (· + 1), fb := none }) })

/-- The seed bits of a STEP's record have no effect (R179). -/
def Obligations.StepIgnoresSeed : Prop :=
  ∀ (w : Nat) (a b : Word w) (s : State), exec (.step w a) s = exec (.step w b) s

/-- Reset held: a second LOAD_SEED leaves what it would have left without the first (R172, R88). -/
def Obligations.LastLoadWins : Prop :=
  ∀ (s : State) (m : SeqModule) (a b : Word m.poly.width), s.circuit = some (.sequential m) →
    ∃ t, exec (.loadSeed m.poly.width a) s = .next t ∧
      exec (.loadSeed m.poly.width b) t = exec (.loadSeed m.poly.width b) s

/-- A LOAD_SEED and `k` STEPs: the register is `s_k`, the net is `y_k`, the bookkeeping is `k` (R28, R88, R89, R94). -/
def Obligations.LoadThenStepsResult : Prop :=
  ∀ (k : Nat) (s : State) (m : SeqModule) (v x : Word m.poly.width), s.circuit = some (.sequential m) →
    loadThenSteps m.poly.width v x k s =
      .next { s with circuit := some (.sequential
        { m with reg := some (stateAfter m.poly.taps v k), cycle := some k, fb := some (feedbackAt m.poly.taps v k) }) }

/-- STEP and FEEDBACK are linear over GF(2) (R91). -/
def Obligations.StepIsLinear : Prop :=
  ∀ (w : Nat) (taps : Term) (a b : Word w),
    shift taps (a ^^^ b) = shift taps a ^^^ shift taps b ∧ xorbits (a ^^^ b) taps = (xorbits a taps ^^ xorbits b taps)

/-- After a LOAD_SEED of 0 the register stays 0 through every later STEP (R92). -/
def Obligations.ZeroSeedLocksUp : Prop :=
  ∀ (k : Nat) (s : State) (m : SeqModule) (x : Word m.poly.width), s.circuit = some (.sequential m) →
    loadThenSteps m.poly.width (0#m.poly.width) x k s =
      .next { s with circuit := some (.sequential
        { m with reg := some (0#m.poly.width), cycle := some k, fb := some false }) }

/-- STEP is a bijection, the pre-edge bits are recovered as R93 says, and a non-zero state never steps to 0 (R93). -/
def Obligations.StepIsBijective : Prop :=
  ∀ p : Sys2Proof.Polynomial,
    Function.Bijective (fun v : Word p.width => shift p.taps v) ∧
    ∀ v : Word p.width,
      (∀ i, 1 ≤ i → i < p.width → v.getLsbD (i - 1) = (shift p.taps v).getLsbD i) ∧
      v.getLsbD (p.width - 1) = ((shift p.taps v).getLsbD 0 ^^ xorbits v (p.taps.erase (p.width - 1))) ∧
      (v ≠ 0#p.width → shift p.taps v ≠ 0#p.width)

/-- Every non-zero seed comes back after at most `2^W - 1` STEPs (R93). -/
def Obligations.SeedComesBack : Prop :=
  ∀ (s : State) (m : SeqModule) (v x : Word m.poly.width), s.circuit = some (.sequential m) →
    v ≠ 0#m.poly.width →
    ∃ k, 1 ≤ k ∧ k ≤ 2 ^ m.poly.width - 1 ∧
      loadThenSteps m.poly.width v x k s =
        .next { s with circuit := some (.sequential
          { m with reg := some v, cycle := some k, fb := some (parity m.poly.taps fun t => v.getLsbD t) }) }

/-- The closed form of the state sequence and of the feedback bits, and the recurrence for `c >= W` (R94). -/
def Obligations.SequenceClosedForm : Prop :=
  ∀ (p : Sys2Proof.Polynomial) (v : Word p.width),
    (∀ c i, i < p.width →
      (stateAfter p.taps v c).getLsbD i = if c ≤ i then v.getLsbD (i - c) else feedbackAt p.taps v (c - 1 - i)) ∧
    (∀ c, feedbackAt p.taps v c =
      parity p.taps fun t => if c ≤ t then v.getLsbD (t - c) else feedbackAt p.taps v (c - 1 - t)) ∧
    (∀ c, p.width ≤ c → feedbackAt p.taps v c = parity p.taps fun t => feedbackAt p.taps v (c - 1 - t))

/-! ## Symbolic cycle expander -/

/-- EXPAND completes for every Polynomial and every `n >= 0`, `n = 0` included: the schedule has `n` terms, each the symmetric
difference R112 gives, and nothing else changes but the call's place (R105, R108, R112). That a term, which is a set, is listed
in ascending order is the model's choice (log 20). -/
def Obligations.ExpandResult : Prop :=
  ∀ (p : Sys2Proof.Polynomial) (n : Nat) (s : State),
    ∃ sc : Schedule,
      exec (.expand p n) s = .next { s with gen := { s.gen with phase := .emit, sched := some sc } } ∧
      sc.length = n ∧
      (∀ S ∈ sc, S.Pairwise (· < ·) ∧ ∀ j ∈ S, j < p.width) ∧
      ∀ k, k < n → ∀ j, decide (j ∈ sc.getD k []) =
        parity p.taps fun t => if k ≤ t then decide (j = t - k) else decide (j ∈ sc.getD (k - 1 - t) [])

/-- No term of a schedule is ever empty, maximal-length polynomial or not (R109, R157). -/
def Obligations.TermsAreNonEmpty : Prop :=
  ∀ (p : Sys2Proof.Polynomial) (n : Nat), ∀ S ∈ expand p n, S ≠ []

/-- The term of cycle 0 is the tap set (R110). -/
def Obligations.CycleZeroIsTheTaps : Prop :=
  ∀ (p : Sys2Proof.Polynomial) (n : Nat), (expand p (n + 1))[0]? = some p.taps

/-- The closed form of the cells: `cell_c[i]` is `{i-c}` for `i >= c` and `sched[c-1-i]` otherwise (R112). -/
def Obligations.SnapshotClosedForm : Prop :=
  ∀ (p : Sys2Proof.Polynomial) (n c i : Nat), c ≤ n → i < p.width →
    (snapshotAt p c)[i]? = some (if c ≤ i then [i - c] else (expand p n).getD (c - 1 - i) [])

/-- A seed index in an even number of the tapped cells cancels out of the feedback term, one in an odd number stays
(R114). -/
def Obligations.RepeatedIndexCancels : Prop :=
  ∀ (taps : Term) (cells : Snapshot) (j : Nat), (∀ S ∈ cells, S.Pairwise (· < ·)) →
    decide (j ∈ feedbackTerm taps cells) = parity taps fun t => decide (j ∈ cells.getD t [])

/-- The matrix form: the cell-`i` term at cycle `c` is row `i` of `A^c`, and the term of cycle `k` is row 0 of `A^(k+1)`
(R111). -/
def Obligations.ScheduleIsMatrixPower : Prop :=
  ∀ p : Sys2Proof.Polynomial,
    (∀ (c : Nat) (i j : Fin p.width), j.val ∈ (snapshotAt p c).getD i.val [] ↔ (p.stepMatrix ^ c) i j = 1) ∧
    (∀ (n k : Nat) (i j : Fin p.width), k < n → i.val = 0 →
      (j.val ∈ (expand p n).getD k [] ↔ (p.stepMatrix ^ (k + 1)) i j = 1))

/-- The symbolic computation and the engine agree for every seed, every cell and every cycle (R113, R106). -/
def Obligations.ExpanderAgreesWithEngine : Prop :=
  ∀ (p : Sys2Proof.Polynomial) (v : Word p.width),
    (∀ c i, i < p.width → xorbits v ((snapshotAt p c).getD i []) = (stateAfter p.taps v c).getLsbD i) ∧
    (∀ n k, k < n → xorbits v ((expand p n).getD k []) = (stateAfter p.taps v (k + 1)).getLsbD 0)

/-- A shorter schedule is a prefix of a longer one (R115). -/
def Obligations.SchedulesArePrefixes : Prop :=
  ∀ (p : Sys2Proof.Polynomial) (n n' : Nat), n ≤ n' → expand p n = (expand p n').take n

/-- If `q` STEPs are the identity, the schedule repeats after `q` terms; for `0b110110`, 63 STEPs are the identity (R116). -/
def Obligations.SchedulesRepeat : Prop :=
  (∀ (p : Sys2Proof.Polynomial) (q : Nat), (∀ v : Word p.width, stateAfter p.taps v q = v) →
    ∀ n k, k + q < n → (expand p n).getD (k + q) [] = (expand p n).getD k []) ∧
  ∀ v : Word 6, stateAfter [1, 2, 4, 5] v 63 = v

/-! ## Parallel generator -/

/-- EVAL: output bit `k` is the XOR of the seed bits of tree `k`; nothing else changes (R126, R130). -/
def Obligations.EvalResult : Prop :=
  ∀ (s : State) (m : ParModule), s.circuit = some (.parallel m) →
    ∃ o : Word m.n, exec .eval s = .next { s with circuit := some (.parallel { m with out := o }) } ∧
      ∀ k, k < m.n → o.getLsbD k = parity (m.trees.getD k []) fun i => m.seed.getLsbD i

/-- The parallel module against the sequential one of the same polynomial: output bit `k` is the bit the engine, loaded with the
same seed, holds in `state[i]` after `k + 1 + i` STEPs (R127, R181). -/
def Obligations.EvalAgreesWithEngine : Prop :=
  ∀ (s : State) (m : ParModule), s.circuit = some (.parallel m) → m.Sound →
    ∃ o : Word m.n, exec .eval s = .next { s with circuit := some (.parallel { m with out := o }) } ∧
      ∀ (s' : State) (q : SeqModule) (x : Word m.poly.width), s'.circuit = some (.sequential q) → q.poly = m.poly →
        ∀ k i, k < m.n → i < m.poly.width →
          ∃ u r, loadThenSteps m.poly.width m.seed x (k + 1 + i) s' = .next u ∧ u.circuit = some (.sequential r) ∧
            r.reg.map (fun v => v.getLsbD i) = some (o.getLsbD k)

/-- The recurrence on the outputs: seed bits for `t >= k`, earlier outputs otherwise (R128). -/
def Obligations.OutputRecurrence : Prop :=
  ∀ (p : Sys2Proof.Polynomial) (n : Nat) (v : Word p.width) (k : Nat), k < n →
    (evalTrees (expand p n) v n).getLsbD k =
      parity p.taps fun t => if k ≤ t then v.getLsbD (t - k) else (evalTrees (expand p n) v n).getLsbD (k - 1 - t)

/-- EVAL is linear, and 0 gives 0 (R129). -/
def Obligations.EvalIsLinear : Prop :=
  ∀ (w n : Nat) (trees : Schedule) (a b : Word w),
    evalTrees trees (a ^^^ b) n = evalTrees trees a n ^^^ evalTrees trees b n ∧ evalTrees trees (0#w) n = 0#n

/-- The modules for `N` and for a larger `N` agree on the low `N` bits (R131). -/
def Obligations.NarrowerModuleAgrees : Prop :=
  ∀ (p : Sys2Proof.Polynomial) (n n' : Nat) (v : Word p.width), n ≤ n' →
    evalTrees (expand p n) v n = (evalTrees (expand p n') v n').setWidth n

/-! ## The machine -/

/-- A step runs the decoded operation: of a waiting literal (R64, R74); of the record sampled at a rising clock, the event taken
and the clock wire high (R61, R62, R87); of parallel elaboration (R64); of an instant in which nothing is pending (R62, R63).
That each place of a generation call is a step of its own is the model's choice (log 11), and so is that the always-active
operation is what an instant with nothing pending runs (log 26). -/
def Obligations.StepRunsTheDecoded : Prop :=
  (∀ (s : State) (i : Instr), s.gen.phase = .parse → decode (.literal s.gen.call.genPoly) = .ok i → step s = exec i s) ∧
  (∀ (s : State) (m : SeqModule) (rest : List Input) (i : Instr), s.gen.phase = .idle → s.circuit = some (.sequential m) →
    m.clk = false → s.inputs = .clk true :: rest → decode (.record m.poly.width (BitVec.cons m.rst m.seed)) = .ok i →
    step s = exec i { s with inputs := rest, circuit := some (.sequential { m with clk := true }) }) ∧
  (∀ (s : State) (p : Sys2Proof.Polynomial) (i : Instr), s.gen.phase = .build → s.gen.poly = some p → s.gen.call.mode = .parallel →
    decode (.elaborate .parallel p s.gen.call.outWidth.toNat) = .ok i → step s = exec i s) ∧
  (∀ (s : State) (c : Circuit) (i : Instr), s.gen.phase = .idle → s.inputs = [] → s.circuit = some c →
    decode (.always c.mode) = .ok i → step s = exec i s)

/-- An active edge performs exactly one of LOAD_SEED and STEP, and reset wins (R32, R87, R159, R170). -/
def Obligations.ActiveEdge : Prop :=
  ∀ (s : State) (m : SeqModule) (rest : List Input), s.gen.phase = .idle → s.circuit = some (.sequential m) →
    m.clk = false → s.inputs = .clk true :: rest →
    (m.rst = true →
      step s = .next { s with inputs := rest, circuit := some (.sequential
        { m with clk := true, reg := some m.seed, cycle := some 0, fb := some (xorbits m.seed m.poly.taps) }) }) ∧
    (∀ v, m.rst = false → m.reg = some v →
      step s = .next { s with inputs := rest, circuit := some (.sequential
        { m with clk := true, reg := some (shift m.poly.taps v), cycle := m.cycle.map (· + 1)
                 fb := some (xorbits (shift m.poly.taps v) m.poly.taps) }) }) ∧
    (m.rst = false → m.reg = none →
      step s = .next { s with inputs := rest, circuit := some (.sequential
        { m with clk := true, reg := none, cycle := m.cycle.map (· + 1), fb := none }) })

/-- Between active edges the register does not change, whatever the wires do: a change of `rst` or `seed`, a clock that does
not rise, an observation, or nothing (R32, R46, R177, R179). -/
def Obligations.RegisterHoldsBetweenEdges : Prop :=
  ∀ (s t : State) (m : SeqModule), s.gen.phase = .idle → s.circuit = some (.sequential m) →
    (s.inputs = [] ∨ ∃ e rest, s.inputs = e :: rest ∧ ((∃ b, e = .rst b) ∨ (∃ w x, e = .seed w x) ∨ e = .observe ∨
      e = .clk false ∨ (e = .clk true ∧ m.clk = true))) →
    step s = .next t →
    ∃ clk rst seed fb, t.circuit = some (.sequential { m with clk := clk, rst := rst, seed := seed, fb := fb }) ∧
      t.gen = s.gen ∧ t.text = s.text

/-- A wire of the sequential module takes the level the environment gives it, whatever that level is, and its step completes: the
reset wire, the seed wires, a clock driven low, and a clock driven high while it is high, which is no rise (R30, R32, R177). -/
def Obligations.WiresTakeTheirLevels : Prop :=
  ∀ (s : State) (m : SeqModule) (rest : List Input) (b : Bool) (x : Word m.poly.width), s.gen.phase = .idle →
    s.circuit = some (.sequential m) →
    (s.inputs = .rst b :: rest →
      step s = .next { s with inputs := rest, circuit := some (.sequential { m with rst := b, fb := m.feedbackNet }) }) ∧
    (s.inputs = .seed m.poly.width x :: rest →
      step s = .next { s with inputs := rest, circuit := some (.sequential { m with seed := x, fb := m.feedbackNet }) }) ∧
    (s.inputs = .clk false :: rest →
      step s = .next { s with inputs := rest, circuit := some (.sequential { m with clk := false, fb := m.feedbackNet }) }) ∧
    (s.inputs = .clk true :: rest → m.clk = true →
      step s = .next { s with inputs := rest, circuit := some (.sequential { m with clk := true, fb := m.feedbackNet }) })

/-- A new seed value on the parallel module gives the new outputs in the same step (R126). -/
def Obligations.OutputsFollowTheSeed : Prop :=
  ∀ (s : State) (m : ParModule) (rest : List Input) (x : Word m.poly.width), s.gen.phase = .idle →
    s.circuit = some (.parallel m) → s.inputs = .seed m.poly.width x :: rest →
    ∃ o : Word m.n,
      step s = .next { s with inputs := rest, circuit := some (.parallel { m with seed := x, out := o }) } ∧
      ∀ k, k < m.n → o.getLsbD k = parity (m.trees.getD k []) fun i => x.getLsbD i

/-- Observing an uninitialised register is the fault UninitialisedRead, on the port and on the feedback net; any other
observation changes nothing (R23, R46, R156). -/
def Obligations.ObservationOfState : Prop :=
  ∀ (s : State) (rest : List Input), s.gen.phase = .idle → s.inputs = .observe :: rest →
    (∀ m, s.circuit = some (.sequential m) → m.reg = none →
      step s = .fault .uninitialisedRead ∧ m.readFeedback = .error .uninitialisedRead) ∧
    (∀ m v, s.circuit = some (.sequential m) → m.reg = some v →
      step s = .next { s with inputs := rest } ∧ m.readState = .ok v ∧ m.readFeedback = .ok (xorbits v m.poly.taps)) ∧
    (∀ m, s.circuit = some (.parallel m) → step s = .next { s with inputs := rest })

/-- The `out_width` check: in parallel mode every `N < 1` ends the call with InvalidOutputWidth; in sequential mode it is never
checked (R153). -/
def Obligations.OutWidthCheck : Prop :=
  ∀ s : State, s.gen.phase = .width →
    (s.gen.call.mode = .parallel → s.gen.call.outWidth < 1 →
      ∃ t, step s = .next t ∧ t.gen.error = some (.invalidOutputWidth s.gen.call.outWidth) ∧ t.gen.phase = .idle ∧
        t.circuit = none ∧ t.text = none ∧ t.inputs = s.inputs) ∧
    (s.gen.call.mode = .sequential ∨ 1 ≤ s.gen.call.outWidth →
      step s = .next { s with gen := { s.gen with phase := .build } })

/-- A whole generation call, five steps: it ends with the first error of the order format, value, `N` and then has no module and
no text, or with the module at power-on and its text (R34, R64, R148, R154, R155). The number of steps and the input wires'
levels at power-on are the model's choices (log 11, log 3). -/
def Obligations.GenerationCallOutcome : Prop :=
  ∀ (s : State) (call : GenCall), s.gen.phase = .idle → s.inputs = [.generate call] →
    ∃ t : State, runSteps 5 s = .next t ∧ t.gen.phase = .idle ∧ t.inputs = [] ∧
      (∀ e, parseLiteral call.genPoly = .error e → t.gen.error = some e ∧ t.circuit = none ∧ t.text = none) ∧
      (∀ p, parseLiteral call.genPoly = .ok p → call.mode = .sequential →
        t.gen.error = none ∧ t.circuit = some (.sequential (SeqModule.powerOn p)) ∧
        t.text = some (sequentialText call p p.taps)) ∧
      (∀ p, parseLiteral call.genPoly = .ok p → call.mode = .parallel → call.outWidth < 1 →
        t.gen.error = some (.invalidOutputWidth call.outWidth) ∧ t.circuit = none ∧ t.text = none) ∧
      (∀ p (n : Nat) (pos : 1 ≤ n), parseLiteral call.genPoly = .ok p → call.mode = .parallel → call.outWidth = n →
        t.gen.error = none ∧
        t.circuit = some (.parallel (ParModule.powerOn p n pos (expand p n))) ∧
        t.text = some (parallelText call p n pos (expand p n)))

/-- The literal's spelling reaches neither the hardware nor the text: two calls that differ in the literal only, both literals
parsing to the same Polynomial, end with the same module and the same text (R59, R140). R59 lets the spelling reach the
informational module name: that it does not reach it here is the model's choice (log 13). The five steps are too (log 11). -/
def Obligations.EmissionIsDeterministic : Prop :=
  ∀ (s s' : State) (call : GenCall) (lit : Literal) (p : Sys2Proof.Polynomial), s.gen.phase = .idle → s'.gen.phase = .idle →
    s.inputs = [.generate call] → s'.inputs = [.generate { call with genPoly := lit }] →
    parseLiteral call.genPoly = .ok p → parseLiteral lit = .ok p →
    ∃ t t' : State, runSteps 5 s = .next t ∧ runSteps 5 s' = .next t' ∧
      t.circuit = t'.circuit ∧ t.text = t'.text

/-- Emission in sequential mode: the text opens with the banner, which states that the artifact is generated and must not be
hand-edited, the bit-width and the human-readable polynomial; one feedback equation over the taps in the order of the feedback
expression, one clocked process, the ports of R30 (their order in the text is the model's choice, log 28), and the register,
the net and the bookkeeping uninitialised (R30, R34, R143, R144, R146). -/
def Obligations.SequentialEmission : Prop :=
  ∀ (s : State) (p : Sys2Proof.Polynomial) (chain : Term), s.gen.phase = .emit → s.gen.call.mode = .sequential →
    s.gen.poly = some p → s.gen.chain = some chain →
    ∃ t x m, step s = .next t ∧ t.text = some x ∧ t.circuit = some (.sequential m) ∧ t.inputs = s.inputs ∧
      x.opening.statesGenerated = true ∧ x.opening.statesNoHandEdit = true ∧ x.opening.width = p.width ∧
      x.opening.polynomial = renderPolynomial p.taps ∧
      x.body = [.feedbackEquation (xorChain .regBit chain), .clockedResetShift] ∧
      x.ports = [⟨.clk, .input, 1⟩, ⟨.rst, .input, 1⟩, ⟨.seed, .input, p.width⟩, ⟨.state, .output, p.width⟩] ∧
      m.poly = p ∧ m.reg = none ∧ m.fb = none ∧ m.cycle = none

/-- Emission in parallel mode, `N >= 1`: the text opens with the banner of R146; exactly one assignment for each term, the
assignment of bit `k` the XOR chain over term `k` in the term's ascending order, and the ports of R31 (R31, R125, R141, R143,
R145, R146). That the assignments stand by ascending `k`, which no rule orders, and the ports' order are the model's choice
(log 28). -/
def Obligations.ParallelEmission : Prop :=
  ∀ (s : State) (p : Sys2Proof.Polynomial) (n : Nat) (sc : Schedule), s.gen.phase = .emit → s.gen.call.mode = .parallel →
    s.gen.call.outWidth = n → 1 ≤ n → s.gen.poly = some p → s.gen.sched = some sc →
    ∃ t x m, step s = .next t ∧ t.text = some x ∧ t.circuit = some (.parallel m) ∧ t.inputs = s.inputs ∧
      x.opening.statesGenerated = true ∧ x.opening.statesNoHandEdit = true ∧ x.opening.width = p.width ∧
      x.opening.polynomial = renderPolynomial p.taps ∧
      x.body.length = sc.length ∧
      (∀ k, k < sc.length → x.body[k]? = some (.assignOut k (xorChain .seedBit (sc.getD k [])))) ∧
      x.ports = [⟨.seed, .input, p.width⟩, ⟨.out, .output, n⟩] ∧
      m.poly = p ∧ m.trees = sc ∧ m.n = n

/-- The human-readable polynomial: the highest exponent first, tap `t` as `x^(t+1)`, the constant 1 last; and an XOR chain of one
operand has no operator (R143, R149). -/
def Obligations.RenderingRules : Prop :=
  renderPolynomial [] = ['1'] ∧
  (∀ (T : Term) (t : Nat),
    renderPolynomial (T ++ [t]) = ['x', '^'] ++ Nat.toDigits 10 (t + 1) ++ [' ', '+', ' '] ++ renderPolynomial T) ∧
  (∀ (f : Nat → Token) (i : Nat), xorChain f [i] = [f i]) ∧
  (∀ (f : Nat → Token) (i j : Nat) (S : Term), xorChain f (i :: j :: S) = f i :: .xor :: xorChain f (j :: S))

/-! ## Invariants -/

/-- The state after reset: no module, no text, nothing pending, and the invariant holds. That nothing is pending and no call is in
progress is the model's choice (log 9, log 10). -/
def Obligations.ResetMeetsTheInvariant : Prop :=
  State.reset.Inv ∧ State.reset.circuit = none ∧ State.reset.text = none ∧ State.reset.inputs = [] ∧
    State.reset.gen.phase = .idle

/-- Every step keeps the invariant: trees that are the expander's, nets at the level their inputs give, the bookkeeping defined
exactly with the register, no module beside an error or during a call (R25, R34, R125, R126, R148, R154). -/
def Obligations.StepKeepsTheInvariant : Prop :=
  ∀ s t : State, s.Inv → step s = .next t → t.Inv

/-- The configuration of a module is legal in every sense of R21, and no run-time event changes it: only a new generation call, which is another
machine, replaces the module (R20, R21; the replacement is the model's choice, log 8). -/
def Obligations.ConfigurationIsFixed : Prop :=
  ∀ (s : State) (c : Circuit), s.Inv → s.circuit = some c →
    c.configuration.Legal ∧
    ∀ t, step s = .next t →
      (∃ call rest, s.inputs = .generate call :: rest ∧ t.circuit = none) ∨
      ∃ c', t.circuit = some c' ∧ c'.configuration = c.configuration

/-- A state of the invariant faults only when an uninitialised register is observed: no event at an edge, no seed and no literal
faults, and no schedule has an empty term (R156, R157). -/
def Obligations.OnlyObservationFaults : Prop :=
  ∀ (s : State) (f : Fault), s.Inv → step s = .fault f →
    f = .uninitialisedRead ∧ ∃ rest m, s.inputs = .observe :: rest ∧ s.circuit = some (.sequential m) ∧ m.reg = none

/-- A state of the invariant is refused exactly when, between calls, the pending event uses a port the generated hardware does not
have (any port where there is no module; `clk` and `rst` of a parallel module), or drives `seed` with a value of another width
than the module's (R30, R31; the form of the refusals is the model's choice, log 12). -/
def Obligations.OnlyForeignPortsAreRefused : Prop :=
  ∀ (s : State) (r : Refusal), s.Inv →
    (step s = .refused r ↔ s.gen.phase = .idle ∧ ∃ e rest, s.inputs = e :: rest ∧
      (r = .noSuchPort ∧ (s.circuit = none ∧ (∀ call, e ≠ .generate call) ∨
          (∃ m, s.circuit = some (.parallel m)) ∧ ∃ b, e = .clk b ∨ e = .rst b) ∨
        r = .portWidth ∧ ∃ w x c, e = .seed w x ∧ s.circuit = some c ∧ w ≠ c.configuration.poly.width))

/-- A configuration that fails has no machine: with no module every run-time operation is refused, and an operation of the other
variant's module is refused too (R154, R11; the form of the refusal is the model's, log 7). -/
def Obligations.NoModuleNoOperation : Prop :=
  ∀ s : State,
    ((∀ m, s.circuit ≠ some (.sequential m)) →
      exec .feedback s = .refused .noSequentialModule ∧
      (∀ w x, exec (.loadSeed w x) s = .refused .noSequentialModule) ∧
      (∀ w x, exec (.step w x) s = .refused .noSequentialModule)) ∧
    ((∀ m, s.circuit ≠ some (.parallel m)) → exec .eval s = .refused .noParallelModule)

/-- A record of another width than the module's is refused (log 12). -/
def Obligations.ForeignRecordIsRefused : Prop :=
  ∀ (s : State) (m : SeqModule) (w : Nat) (x : Word w), s.circuit = some (.sequential m) → w ≠ m.poly.width →
    exec (.loadSeed w x) s = .refused .portWidth ∧ exec (.step w x) s = .refused .portWidth
end

