-- ==== Sys2Proof/Laws/State.lean ====
section
/-! SUPPORT. One lemma for each field of each update of the state, so that no proof unfolds a record update. -/

namespace Sys2Proof.Machine

section Updates
variable (s : State)

@[simp] theorem State.setSequential_gen (m : SeqModule) : (s.setSequential m).gen = s.gen := rfl
@[simp] theorem State.setSequential_circuit (m : SeqModule) : (s.setSequential m).circuit = some (.sequential m) := rfl
@[simp] theorem State.setSequential_text (m : SeqModule) : (s.setSequential m).text = s.text := rfl
@[simp] theorem State.setSequential_inputs (m : SeqModule) : (s.setSequential m).inputs = s.inputs := rfl
@[simp] theorem State.setSequential_setSequential (m m' : SeqModule) :
    (s.setSequential m).setSequential m' = s.setSequential m' := rfl

@[simp] theorem State.setParallel_gen (m : ParModule) : (s.setParallel m).gen = s.gen := rfl
@[simp] theorem State.setParallel_circuit (m : ParModule) : (s.setParallel m).circuit = some (.parallel m) := rfl
@[simp] theorem State.setParallel_text (m : ParModule) : (s.setParallel m).text = s.text := rfl
@[simp] theorem State.setParallel_inputs (m : ParModule) : (s.setParallel m).inputs = s.inputs := rfl
@[simp] theorem State.setParallel_setParallel (m m' : ParModule) :
    (s.setParallel m).setParallel m' = s.setParallel m' := rfl

@[simp] theorem State.setParsed_call (p : Polynomial) : (s.setParsed p).gen.call = s.gen.call := rfl
@[simp] theorem State.setParsed_phase (p : Polynomial) : (s.setParsed p).gen.phase = .width := rfl
@[simp] theorem State.setParsed_poly (p : Polynomial) : (s.setParsed p).gen.poly = some p := rfl
@[simp] theorem State.setParsed_chain (p : Polynomial) : (s.setParsed p).gen.chain = none := rfl
@[simp] theorem State.setParsed_sched (p : Polynomial) : (s.setParsed p).gen.sched = none := rfl
@[simp] theorem State.setParsed_error (p : Polynomial) : (s.setParsed p).gen.error = none := rfl
@[simp] theorem State.setParsed_circuit (p : Polynomial) : (s.setParsed p).circuit = s.circuit := rfl
@[simp] theorem State.setParsed_text (p : Polynomial) : (s.setParsed p).text = s.text := rfl
@[simp] theorem State.setParsed_inputs (p : Polynomial) : (s.setParsed p).inputs = s.inputs := rfl

@[simp] theorem State.setSchedule_call (sc : Schedule) : (s.setSchedule sc).gen.call = s.gen.call := rfl
@[simp] theorem State.setSchedule_phase (sc : Schedule) : (s.setSchedule sc).gen.phase = .emit := rfl
@[simp] theorem State.setSchedule_poly (sc : Schedule) : (s.setSchedule sc).gen.poly = s.gen.poly := rfl
@[simp] theorem State.setSchedule_chain (sc : Schedule) : (s.setSchedule sc).gen.chain = s.gen.chain := rfl
@[simp] theorem State.setSchedule_sched (sc : Schedule) : (s.setSchedule sc).gen.sched = some sc := rfl
@[simp] theorem State.setSchedule_error (sc : Schedule) : (s.setSchedule sc).gen.error = s.gen.error := rfl
@[simp] theorem State.setSchedule_circuit (sc : Schedule) : (s.setSchedule sc).circuit = s.circuit := rfl
@[simp] theorem State.setSchedule_text (sc : Schedule) : (s.setSchedule sc).text = s.text := rfl
@[simp] theorem State.setSchedule_inputs (sc : Schedule) : (s.setSchedule sc).inputs = s.inputs := rfl

@[simp] theorem State.failWith_call (e : ElabError) : (s.failWith e).gen.call = s.gen.call := rfl
@[simp] theorem State.failWith_phase (e : ElabError) : (s.failWith e).gen.phase = .idle := rfl
@[simp] theorem State.failWith_poly (e : ElabError) : (s.failWith e).gen.poly = none := rfl
@[simp] theorem State.failWith_chain (e : ElabError) : (s.failWith e).gen.chain = none := rfl
@[simp] theorem State.failWith_sched (e : ElabError) : (s.failWith e).gen.sched = none := rfl
@[simp] theorem State.failWith_error (e : ElabError) : (s.failWith e).gen.error = some e := rfl
@[simp] theorem State.failWith_circuit (e : ElabError) : (s.failWith e).circuit = none := rfl
@[simp] theorem State.failWith_text (e : ElabError) : (s.failWith e).text = none := rfl
@[simp] theorem State.failWith_inputs (e : ElabError) : (s.failWith e).inputs = s.inputs := rfl

@[simp] theorem State.startCall_call (c : GenCall) : (s.startCall c).gen.call = c := rfl
@[simp] theorem State.startCall_phase (c : GenCall) : (s.startCall c).gen.phase = .parse := rfl
@[simp] theorem State.startCall_poly (c : GenCall) : (s.startCall c).gen.poly = none := rfl
@[simp] theorem State.startCall_chain (c : GenCall) : (s.startCall c).gen.chain = none := rfl
@[simp] theorem State.startCall_sched (c : GenCall) : (s.startCall c).gen.sched = none := rfl
@[simp] theorem State.startCall_error (c : GenCall) : (s.startCall c).gen.error = none := rfl
@[simp] theorem State.startCall_circuit (c : GenCall) : (s.startCall c).circuit = none := rfl
@[simp] theorem State.startCall_text (c : GenCall) : (s.startCall c).text = none := rfl
@[simp] theorem State.startCall_inputs (c : GenCall) : (s.startCall c).inputs = s.inputs := rfl

@[simp] theorem State.complete_call (c : Circuit) (t : GeneratedModule) : (s.complete c t).gen.call = s.gen.call := rfl
@[simp] theorem State.complete_phase (c : Circuit) (t : GeneratedModule) : (s.complete c t).gen.phase = .idle := rfl
@[simp] theorem State.complete_poly (c : Circuit) (t : GeneratedModule) : (s.complete c t).gen.poly = none := rfl
@[simp] theorem State.complete_chain (c : Circuit) (t : GeneratedModule) : (s.complete c t).gen.chain = none := rfl
@[simp] theorem State.complete_sched (c : Circuit) (t : GeneratedModule) : (s.complete c t).gen.sched = none := rfl
@[simp] theorem State.complete_error (c : Circuit) (t : GeneratedModule) : (s.complete c t).gen.error = s.gen.error := rfl
@[simp] theorem State.complete_circuit (c : Circuit) (t : GeneratedModule) : (s.complete c t).circuit = some c := rfl
@[simp] theorem State.complete_text (c : Circuit) (t : GeneratedModule) : (s.complete c t).text = some t := rfl
@[simp] theorem State.complete_inputs (c : Circuit) (t : GeneratedModule) : (s.complete c t).inputs = s.inputs := rfl

@[simp] theorem State.enterBuild_call : s.enterBuild.gen.call = s.gen.call := rfl
@[simp] theorem State.enterBuild_phase : s.enterBuild.gen.phase = .build := rfl
@[simp] theorem State.enterBuild_poly : s.enterBuild.gen.poly = s.gen.poly := rfl
@[simp] theorem State.enterBuild_chain : s.enterBuild.gen.chain = s.gen.chain := rfl
@[simp] theorem State.enterBuild_sched : s.enterBuild.gen.sched = s.gen.sched := rfl
@[simp] theorem State.enterBuild_error : s.enterBuild.gen.error = s.gen.error := rfl
@[simp] theorem State.enterBuild_circuit : s.enterBuild.circuit = s.circuit := rfl
@[simp] theorem State.enterBuild_text : s.enterBuild.text = s.text := rfl
@[simp] theorem State.enterBuild_inputs : s.enterBuild.inputs = s.inputs := rfl

@[simp] theorem synthesize_call (p : Polynomial) : (synthesize p s).gen.call = s.gen.call := rfl
@[simp] theorem synthesize_phase (p : Polynomial) : (synthesize p s).gen.phase = .emit := rfl
@[simp] theorem synthesize_poly (p : Polynomial) : (synthesize p s).gen.poly = s.gen.poly := rfl
@[simp] theorem synthesize_chain (p : Polynomial) : (synthesize p s).gen.chain = some p.taps := rfl
@[simp] theorem synthesize_sched (p : Polynomial) : (synthesize p s).gen.sched = s.gen.sched := rfl
@[simp] theorem synthesize_error (p : Polynomial) : (synthesize p s).gen.error = s.gen.error := rfl
@[simp] theorem synthesize_circuit (p : Polynomial) : (synthesize p s).circuit = s.circuit := rfl
@[simp] theorem synthesize_text (p : Polynomial) : (synthesize p s).text = s.text := rfl
@[simp] theorem synthesize_inputs (p : Polynomial) : (synthesize p s).inputs = s.inputs := rfl

end Updates

section Modules
variable (m : SeqModule) (q : ParModule)

@[simp] theorem SeqModule.settle_poly : m.settle.poly = m.poly := rfl
@[simp] theorem SeqModule.settle_clk : m.settle.clk = m.clk := rfl
@[simp] theorem SeqModule.settle_rst : m.settle.rst = m.rst := rfl
@[simp] theorem SeqModule.settle_seed : m.settle.seed = m.seed := rfl
@[simp] theorem SeqModule.settle_reg : m.settle.reg = m.reg := rfl
@[simp] theorem SeqModule.settle_fb : m.settle.fb = m.feedbackNet := rfl
@[simp] theorem SeqModule.settle_cycle : m.settle.cycle = m.cycle := rfl

@[simp] theorem SeqModule.load_poly (v : Word m.poly.width) : (m.load v).poly = m.poly := rfl
@[simp] theorem SeqModule.load_clk (v : Word m.poly.width) : (m.load v).clk = m.clk := rfl
@[simp] theorem SeqModule.load_rst (v : Word m.poly.width) : (m.load v).rst = m.rst := rfl
@[simp] theorem SeqModule.load_seed (v : Word m.poly.width) : (m.load v).seed = m.seed := rfl
@[simp] theorem SeqModule.load_reg (v : Word m.poly.width) : (m.load v).reg = some v := rfl
@[simp] theorem SeqModule.load_fb (v : Word m.poly.width) : (m.load v).fb = some (xorbits v m.poly.taps) := rfl
@[simp] theorem SeqModule.load_cycle (v : Word m.poly.width) : (m.load v).cycle = some 0 := rfl

@[simp] theorem SeqModule.advance_poly : m.advance.poly = m.poly := rfl
@[simp] theorem SeqModule.advance_clk : m.advance.clk = m.clk := rfl
@[simp] theorem SeqModule.advance_rst : m.advance.rst = m.rst := rfl
@[simp] theorem SeqModule.advance_seed : m.advance.seed = m.seed := rfl
@[simp] theorem SeqModule.advance_reg : m.advance.reg = m.reg.map (shift m.poly.taps) := rfl
@[simp] theorem SeqModule.advance_fb : m.advance.fb = m.advance.feedbackNet := rfl
@[simp] theorem SeqModule.advance_cycle : m.advance.cycle = m.cycle.map (· + 1) := rfl

@[simp] theorem ParModule.settle_poly : q.settle.poly = q.poly := rfl
@[simp] theorem ParModule.settle_n : q.settle.n = q.n := rfl
@[simp] theorem ParModule.settle_trees : q.settle.trees = q.trees := rfl
@[simp] theorem ParModule.settle_seed : q.settle.seed = q.seed := rfl
@[simp] theorem ParModule.settle_out : q.settle.out = q.outputNet := rfl

end Modules

end Sys2Proof.Machine
end

