-- ==== Sys2Proof/Laws/Ops.lean ====
section
/-! SUPPORT. What the shared operations do, said once for each: XOR over an index set, symmetric difference, the shift, the
output word, the operand forms. -/

namespace Sys2Proof

/-- Every Polynomial obeys the laws of R76. -/
theorem Polynomial.valid (p : Polynomial) : p.Valid := of_decide_eq_true p.legal

/-- Every configuration is legal in every sense of R21. -/
theorem Configuration.legal (c : Configuration) : c.Legal := by
  have hv := c.poly.valid
  refine ⟨hv.1, hv.2.2.1, List.ne_nil_of_mem hv.2.2.2, hv.2.2.2, fun h => ?_, fun h => ?_⟩
  · cases c with
    | sequential p => cases h
    | parallel p n pos => exact ⟨n, rfl, pos⟩
  · cases c with
    | sequential p => rfl
    | parallel p n pos => cases h

end Sys2Proof

namespace Sys2Proof.Machine

/-! The configuration of a call (R21, R153) -/

theorem configure_sequential {call : GenCall} (h : call.mode = .sequential) (p : Polynomial) :
    configure call p = some (.sequential p) := by
  unfold configure
  rw [h]

theorem configure_parallel {call : GenCall} (h : call.mode = .parallel) (hn : 1 ≤ call.outWidth) (p : Polynomial) :
    configure call p = some (.parallel p call.outWidth.toNat (by omega)) := by
  unfold configure
  rw [h]
  exact dif_pos hn

/-- A call has no configuration exactly where InvalidOutputWidth ends it. -/
theorem configure_none {call : GenCall} {p : Polynomial} :
    configure call p = none ↔ call.mode = .parallel ∧ call.outWidth < 1 := by
  unfold configure
  cases call.mode
  · simp
  · simp only [dite_eq_right_iff, reduceCtorEq, imp_false, true_and]
    omega

/-- What a call's configuration is made of. -/
theorem configure_some {call : GenCall} {p : Polynomial} {c : Configuration} (h : configure call p = some c) :
    c.mode = call.mode ∧ c.poly = p ∧ (call.mode = .parallel → c.outWidth = some call.outWidth.toNat) := by
  unfold configure at h
  split at h
  next hm => cases h; exact ⟨hm.symm, rfl, fun e => by rw [hm] at e; cases e⟩
  next hm =>
    split at h
    · cases h; exact ⟨hm.symm, rfl, fun _ => rfl⟩
    · cases h

/-! XOR over an index set (R14) -/

section Xorbits
variable {w : Nat}

@[simp] theorem xorbits_nil (v : Word w) : xorbits v [] = false := rfl

@[simp] theorem xorbits_cons (v : Word w) (i : Nat) (S : Term) : xorbits v (i :: S) = (v.getLsbD i ^^ xorbits v S) := rfl

@[simp] theorem xorbits_zero (S : Term) : xorbits (0#w) S = false := by
  induction S with
  | nil => rfl
  | cons i S ih => simp [ih]

theorem xorbits_xor (a b : Word w) (S : Term) : xorbits (a ^^^ b) S = (xorbits a S ^^ xorbits b S) := by
  induction S with
  | nil => rfl
  | cons i S ih =>
    simp only [xorbits_cons, BitVec.getLsbD_xor, ih]
    cases a.getLsbD i <;> cases b.getLsbD i <;> cases xorbits a S <;> cases xorbits b S <;> rfl

/-- XOR over a set is the parity of the number of its bits that are 1. -/
theorem xorbits_eq_parity (v : Word w) (S : Term) :
    xorbits v S = decide ((S.filter fun i => v.getLsbD i).length % 2 = 1) := by
  induction S with
  | nil => rfl
  | cons i S ih =>
    rw [xorbits_cons, ih, List.filter_cons]
    cases v.getLsbD i
    · simp
    · simp only [if_true, List.length_cons, Bool.true_xor]
      rw [← decide_not]
      exact decide_eq_decide.mpr (by omega)

theorem xorbits_toggle (v : Word w) (i : Nat) (S : Term) : xorbits v (toggle i S) = (v.getLsbD i ^^ xorbits v S) := by
  induction S with
  | nil => rfl
  | cons j S ih =>
    unfold toggle
    split
    · rfl
    · split
      next h => subst h; simp
      next => simp only [xorbits_cons, ih]; cases v.getLsbD i <;> cases v.getLsbD j <;> simp

/-- The XOR over a symmetric difference is the XOR of the two XORs. -/
theorem xorbits_symDiff (v : Word w) (S U : Term) : xorbits v (symDiff S U) = (xorbits v S ^^ xorbits v U) := by
  induction U with
  | nil => simp [symDiff]
  | cons i U ih =>
    have : symDiff S (i :: U) = toggle i (symDiff S U) := rfl
    rw [this, xorbits_toggle, ih, xorbits_cons]
    cases v.getLsbD i <;> cases xorbits v S <;> simp

end Xorbits

/-! Symmetric difference on ascending lists (R14) -/

section SymDiff

theorem mem_toggle_or {i j : Nat} {S : Term} (h : j ∈ toggle i S) : j = i ∨ j ∈ S := by
  induction S with
  | nil => simpa [toggle] using h
  | cons k S ih =>
    unfold toggle at h
    split at h
    · simpa using h
    · split at h
      · exact .inr (List.mem_cons_of_mem _ h)
      · rcases List.mem_cons.mp h with rfl | h
        · simp
        · rcases ih h with rfl | h <;> simp [*]

theorem toggle_ascending (i : Nat) {S : Term} (h : S.Pairwise (· < ·)) : (toggle i S).Pairwise (· < ·) := by
  induction S with
  | nil => simp [toggle]
  | cons k S ih =>
    rw [List.pairwise_cons] at h
    unfold toggle
    split
    next hik =>
      refine List.pairwise_cons.mpr ⟨fun j hj => ?_, List.pairwise_cons.mpr h⟩
      rcases List.mem_cons.mp hj with rfl | hj
      · exact hik
      · exact hik.trans (h.1 j hj)
    next hik =>
      split
      · exact h.2
      next hne =>
        refine List.pairwise_cons.mpr ⟨fun j hj => ?_, ih h.2⟩
        rcases mem_toggle_or hj with rfl | hj
        · omega
        · exact h.1 j hj

theorem mem_toggle {i j : Nat} {S : Term} (h : S.Pairwise (· < ·)) : j ∈ toggle i S ↔ ((j = i) ↔ ¬ j ∈ S) := by
  induction S with
  | nil => simp [toggle]
  | cons k S ih =>
    rw [List.pairwise_cons] at h
    unfold toggle
    split
    next hik =>
      have hi : i ∉ S := fun hi => absurd (h.1 i hi) (by omega)
      by_cases hj : j = i
      · subst hj; simp [hi]; omega
      · simp [hj, or_iff_not_imp_left]
    next hik =>
      split
      next hk =>
        subst hk
        have hi : i ∉ S := fun hi => absurd (h.1 i hi) (by omega)
        by_cases hj : j = i
        · subst hj; simp [hi]
        · simp [hj]
      next hne =>
        rw [List.mem_cons, ih h.2]
        by_cases hj : j = k
        · subst hj; simp; omega
        · simp [hj]

theorem symDiff_ascending {S : Term} (U : Term) (h : S.Pairwise (· < ·)) : (symDiff S U).Pairwise (· < ·) := by
  induction U with
  | nil => exact h
  | cons i U ih => exact toggle_ascending i ih

/-- `S Δ U` holds what exactly one of the two sets holds. -/
theorem mem_symDiff {S U : Term} (hS : S.Pairwise (· < ·)) (hU : U.Pairwise (· < ·)) {j : Nat} :
    j ∈ symDiff S U ↔ (j ∈ S ↔ ¬ j ∈ U) := by
  induction U with
  | nil => simp [symDiff]
  | cons i U ih =>
    rw [List.pairwise_cons] at hU
    have hi : i ∉ U := fun hi => absurd (hU.1 i hi) (by omega)
    have e : symDiff S (i :: U) = toggle i (symDiff S U) := rfl
    rw [e, mem_toggle (symDiff_ascending U hS), ih hU.2]
    by_cases hj : j = i
    · subst hj; simp [hi]
    · simp [hj]

end SymDiff

/-! Words -/

/-- Bit `i` of the word built from `f` is `f i`. -/
@[simp] theorem getLsbD_bitsOf (f : Nat → Bool) (n i : Nat) : (bitsOf f n).getLsbD i = (decide (i < n) && f i) := by
  induction n with
  | zero => simp [bitsOf]
  | succ n ih =>
    unfold bitsOf
    rw [BitVec.getLsbD_cons, ih]
    by_cases h : i = n
    · subst h; simp
    · have : i < n ↔ i < n + 1 := by omega
      simp [h, this]

/-- One shift, bit by bit (R89). -/
theorem getLsbD_shift {w : Nat} (taps : Term) (v : Word w) (i : Nat) :
    (shift taps v).getLsbD i = (decide (i < w) && if i = 0 then xorbits v taps else v.getLsbD (i - 1)) := by
  unfold shift
  rw [BitVec.getLsbD_shiftConcat]

@[simp] theorem getLsbD_evalTrees {w : Nat} (trees : Schedule) (seed : Word w) (n k : Nat) :
    (evalTrees trees seed n).getLsbD k = (decide (k < n) && xorbits seed (trees.getD k [])) := by
  unfold evalTrees
  rw [getLsbD_bitsOf]

/-! Operand forms -/

/-- A port of the value's own width takes the value (R30, R31). -/
@[simp] theorem portValue_self {w : Nat} (x : Word w) : portValue x w = some x := by
  unfold portValue
  simp

/-- A port of another width takes nothing. -/
theorem portValue_ne {v w : Nat} (x : Word v) (h : v ≠ w) : portValue x w = none := if_neg h

/-- `assemble` is the value of the digits after the value read so far (R52, R53). -/
theorem assemble_eq_ofDigits (base : Nat) (digit : Char → Option Nat) (acc : Nat) (ds : List (Char × Nat))
    (h : ∀ d ∈ ds, digit d.1 = some d.2) :
    assemble base digit acc (ds.map Prod.fst) = some (acc * base ^ ds.length + Nat.ofDigits base (ds.map Prod.snd).reverse) := by
  induction ds generalizing acc with
  | nil => simp [assemble]
  | cons d ds ih =>
    have hd := h d (by simp)
    simp only [List.map_cons, assemble, hd, List.reverse_cons, Nat.ofDigits_append, List.length_reverse, List.length_map,
      List.length_cons]
    rw [ih _ fun e he => h e (List.mem_cons_of_mem _ he)]
    simp only [Nat.ofDigits_singleton, pow_succ]
    ring_nf

/-- One character that is no digit makes the whole string no number (R56). -/
theorem assemble_none (base : Nat) (digit : Char → Option Nat) (acc : Nat) (cs : List Char)
    (h : ∃ c ∈ cs, digit c = none) : assemble base digit acc cs = none := by
  induction cs generalizing acc with
  | nil => simp at h
  | cons c cs ih =>
    unfold assemble
    split
    next d hd =>
      obtain ⟨e, he, hn⟩ := h
      rcases List.mem_cons.mp he with rfl | he
      · simp [hd] at hn
      · exact ih _ ⟨e, he, hn⟩
    · rfl

/-- A code the decoder rejects goes on only by ending the call as malformed (R74). -/
theorem rejectCode_next {c : Code} {s t : State} (h : rejectCode c s = .next t) :
    ∃ lit, c = .literal lit ∧ t = s.failWith (.malformedPolynomial lit) := by
  cases c <;> simp [rejectCode] at h ⊢
  exact h.symm

/-- A parse goes on with the Polynomial, or ends the call with the error. -/
theorem finishParse_next {r : Except ElabError Polynomial} {s t : State} (h : finishParse r s = .next t) :
    (∃ p, r = .ok p ∧ t = s.setParsed p) ∨ (∃ e, r = .error e ∧ t = s.failWith e) := by
  cases r <;> simp [finishParse] at h ⊢ <;> exact h.symm

/-- An operation of the sequential module runs on that module. -/
@[simp] theorem withSequential_of {s : State} {m : SeqModule} (h : s.circuit = some (.sequential m))
    (f : SeqModule → Host.Outcome State Fault Refusal) : withSequential s f = f m := by
  unfold withSequential
  rw [h]

/-- An operation of the sequential module goes on only where there is one. -/
theorem withSequential_next {s t : State} {f : SeqModule → Host.Outcome State Fault Refusal}
    (h : withSequential s f = .next t) : ∃ m, s.circuit = some (.sequential m) ∧ f m = .next t := by
  unfold withSequential at h
  split at h
  next m hm => exact ⟨m, hm, h⟩
  next => cases h

/-- An observation changes nothing (R46). -/
theorem observe_next {s t : State} (h : observe s = .next t) : t = s := by
  unfold observe at h
  split at h
  · split at h
    · cases h; rfl
    · cases h
  · cases h; rfl
  · cases h

/-- An observation faults exactly for an uninitialised register (R156). -/
theorem observe_fault {s : State} {f : Fault} (h : observe s = .fault f) :
    f = .uninitialisedRead ∧ ∃ m, s.circuit = some (.sequential m) ∧ m.reg = none := by
  unfold observe at h
  split at h
  next m hm =>
    unfold SeqModule.readState at h
    split at h
    · cases h
    next f' hr =>
      split at hr
      · cases hr
      next hn => cases hr; cases h; exact ⟨rfl, m, hm, hn⟩
  · cases h
  · cases h

end Sys2Proof.Machine
end

