-- ==== Sys2Proof/Laws/PerInstr.lean ====
section
/-! SUPPORT. Statements made for each operation: the decoder gives well-formed operations only. -/

namespace Sys2Proof.Laws.DecodesWellFormed

/-- Whatever code decodes to the operation, the operation is well formed. -/
def Statement (i : Instr) : Prop := ∀ c, decode c = .ok i → i.wf = true

theorem beginsWith_of_hasPrefix {c : Char} {lit : Literal} (h : hasPrefix c lit = true) : beginsWith c lit = true := by
  unfold hasPrefix at h
  split at h
  · simpa [beginsWith] using h
  · cases h

theorem literal_wf {lit : Literal} {i : Instr} (h : decodeLiteral lit = .ok i) : i.wf = true := by
  unfold decodeLiteral at h
  split at h
  next hb => cases h; exact beginsWith_of_hasPrefix hb
  · split at h
    next hx => cases h; exact beginsWith_of_hasPrefix hx
    · cases h

theorem record_wf {w : Nat} {bits : Word (w + 1)} {i : Instr} (h : decodeRecord w bits = .ok i) : i.wf = true := by
  unfold decodeRecord at h
  split at h
  · cases h
  next hw =>
    have : 0 < w := Nat.pos_of_ne_zero hw
    split at h <;> cases h <;> simpa [Instr.wf] using this

theorem elaborate_wf {mode : Mode} {p : Polynomial} {n : Nat} {i : Instr} (h : decodeElaborate mode p n = .ok i) :
    i.wf = true := by
  unfold decodeElaborate at h
  split at h
  · cases h
  · cases h; rfl

/-- The decoder's one lemma: all the operations it gives are well formed. -/
theorem decode_wf {c : Code} {i : Instr} (h : decode c = .ok i) : i.wf = true := by
  cases c with
  | literal lit => exact literal_wf h
  | record w bits => exact record_wf h
  | elaborate mode p n => exact elaborate_wf h
  | always mode => cases mode <;> cases h <;> rfl

theorem parseBin (lit : Literal) : Statement (.parseBin lit) := fun _ h => decode_wf h
theorem parseHex (lit : Literal) : Statement (.parseHex lit) := fun _ h => decode_wf h
theorem feedback : Statement .feedback := fun _ h => decode_wf h
theorem loadSeed (w : Nat) (seed : Word w) : Statement (.loadSeed w seed) := fun _ h => decode_wf h
theorem step (w : Nat) (seed : Word w) : Statement (.step w seed) := fun _ h => decode_wf h
theorem expand (p : Polynomial) (n : Nat) : Statement (.expand p n) := fun _ h => decode_wf h
theorem eval : Statement .eval := fun _ h => decode_wf h

end Sys2Proof.Laws.DecodesWellFormed
end

