-- ==== Sys2Proof/Laws/Step.lean ====
section
/-! SUPPORT. What a step can do, said once: every step that goes on is one of the transitions below. -/

namespace Sys2Proof.Machine

/-- The ways a step goes on, in the order of R64 and then of the events. -/
inductive Transition (s : State) : State → Prop where
  /-- the literal parses -/
  | parsed (p : Polynomial) (hp : s.gen.phase = .parse) (h : parseLiteral s.gen.call.genPoly = .ok p) :
      Transition s (s.setParsed p)
  /-- the literal ends the call -/
  | rejected (e : ElabError) (hp : s.gen.phase = .parse) (h : parseLiteral s.gen.call.genPoly = .error e) :
      Transition s (s.failWith e)
  /-- the `out_width` check -/
  | checked (hp : s.gen.phase = .width) : Transition s (checkWidth s)
  /-- feedback synthesis -/
  | synthesized (p : Polynomial) (hp : s.gen.phase = .build) (hg : s.gen.poly = some p)
      (hm : s.gen.call.mode = .sequential) : Transition s (synthesize p s)
  /-- EXPAND -/
  | expanded (p : Polynomial) (hp : s.gen.phase = .build) (hg : s.gen.poly = some p) (hm : s.gen.call.mode = .parallel) :
      Transition s (s.setSchedule (expand p s.gen.call.outWidth.toNat))
  /-- emission in sequential mode -/
  | emittedSequential (p : Polynomial) (chain : Term) (hp : s.gen.phase = .emit) (hm : s.gen.call.mode = .sequential)
      (hg : s.gen.poly = some p) (hc : s.gen.chain = some chain) :
      Transition s (s.complete (.sequential (SeqModule.powerOn p)) (sequentialText s.gen.call p chain))
  /-- emission in parallel mode -/
  | emittedParallel (p : Polynomial) (n : Nat) (pos : 1 ≤ n) (sc : Schedule) (hp : s.gen.phase = .emit)
      (hm : s.gen.call.mode = .parallel) (hn : n = s.gen.call.outWidth.toNat) (hg : s.gen.poly = some p)
      (hc : s.gen.sched = some sc) :
      Transition s (s.complete (.parallel (ParModule.powerOn p n pos sc)) (parallelText s.gen.call p n pos sc))
  /-- a generation call begins -/
  | started (call : GenCall) (rest : List Input) (hp : s.gen.phase = .idle) (hi : s.inputs = .generate call :: rest) :
      Transition s ({ s with inputs := rest }.startCall call)
  /-- an output port is observed -/
  | observed (rest : List Input) (hp : s.gen.phase = .idle) (hi : s.inputs = .observe :: rest) :
      Transition s { s with inputs := rest }
  /-- nothing is pending and there is no module -/
  | nothing (hp : s.gen.phase = .idle) (hi : s.inputs = []) (hc : s.circuit = none) : Transition s s
  /-- no active edge: the sequential module's wires may move, its net follows -/
  | wires (m : SeqModule) (rest : List Input) (clk rst : Bool) (seed : Word m.poly.width) (hp : s.gen.phase = .idle)
      (hc : s.circuit = some (.sequential m)) (hi : s.inputs = [] ∧ rest = [] ∨ ∃ e, s.inputs = e :: rest) :
      Transition s ({ s with inputs := rest }.setSequential
        (SeqModule.settle { m with clk := clk, rst := rst, seed := seed }))
  /-- an active edge with `rst = 1` -/
  | loaded (m : SeqModule) (rest : List Input) (hp : s.gen.phase = .idle) (hc : s.circuit = some (.sequential m))
      (hi : s.inputs = .clk true :: rest) (hk : m.clk = false) (hr : m.rst = true) :
      Transition s ({ s with inputs := rest }.setSequential (SeqModule.load { m with clk := true } m.seed))
  /-- an active edge with `rst = 0` -/
  | advanced (m : SeqModule) (rest : List Input) (hp : s.gen.phase = .idle) (hc : s.circuit = some (.sequential m))
      (hi : s.inputs = .clk true :: rest) (hk : m.clk = false) (hr : m.rst = false) :
      Transition s ({ s with inputs := rest }.setSequential (SeqModule.advance { m with clk := true }))
  /-- the parallel module's seed may move, its outputs follow -/
  | outputs (m : ParModule) (rest : List Input) (seed : Word m.poly.width) (hp : s.gen.phase = .idle)
      (hc : s.circuit = some (.parallel m)) (hi : s.inputs = [] ∧ rest = [] ∨ ∃ e, s.inputs = e :: rest) :
      Transition s ({ s with inputs := rest }.setParallel (ParModule.settle { m with seed := seed }))

/-- What a fetched action or operation answers. -/
def Fetched.outcome : Fetched → Host.Outcome State Fault Refusal
  | .act o => o
  | .run c s =>
    match decode c with
    | .ok i => exec i s
    | .error _ => rejectCode c s

/-- A step is the outcome of what it fetches. -/
theorem step_eq_outcome (s : State) : step s = (fetch s).outcome := by
  unfold step Fetched.outcome
  cases fetch s <;> rfl

/-- A waiting literal is parsed, whatever it is (R74). -/
theorem literal_outcome (lit : Literal) (s : State) :
    (Fetched.run (.literal lit) s).outcome = finishParse (parseLiteral lit) s := by
  unfold Fetched.outcome parseLiteral
  simp only [decode, decodeLiteral]
  cases hasPrefix 'b' lit
  · cases hasPrefix 'x' lit <;> rfl
  · rfl

/-- The always-active operation of a sequential module settles its net (R62). -/
theorem nets_sequential (s : State) (m : SeqModule) :
    (fetchNets (s.setSequential m)).outcome = .next (s.setSequential m.settle) := rfl

/-- The always-active operation of a parallel module settles its outputs (R63). -/
theorem nets_parallel (s : State) (m : ParModule) :
    (fetchNets (s.setParallel m)).outcome = .next (s.setParallel m.settle) := rfl

/-- The record sampled at an active edge runs LOAD_SEED or STEP, as `rst` says (R62, R87). -/
theorem sampled_outcome (s : State) (m : SeqModule) :
    (Fetched.run m.sampled (s.setSequential m)).outcome =
      .next (s.setSequential (if m.rst then m.load m.seed else m.advance)) := by
  have hd : decode m.sampled =
      .ok (if m.rst then .loadSeed m.poly.width m.seed else .step m.poly.width m.seed) := by
    simp only [SeqModule.sampled, decode, decodeRecord, recordOf, if_neg (Nat.ne_of_gt m.poly.valid.1), BitVec.getLsbD_cons]
    cases m.rst <;> simp
  unfold Fetched.outcome
  simp only [hd]
  cases m.rst
  · simp [exec, execStep, withSequential]
  · simp [exec, execLoadSeed, withSequential]

/-- An idle module without pending events. -/
theorem nets_next {s t : State} (hp : s.gen.phase = .idle) (hi : s.inputs = []) (h : (fetchNets s).outcome = .next t) :
    Transition s t := by
  obtain ⟨g, c, x, i⟩ := s
  cases hi
  rcases c with _ | (m | m)
  · cases h; exact .nothing hp rfl rfl
  · cases h; exact .wires m [] m.clk m.rst m.seed hp rfl (.inl ⟨rfl, rfl⟩)
  · cases h; exact .outputs m [] m.seed hp rfl (.inl ⟨rfl, rfl⟩)

/-- The clock wire. -/
theorem clock_next {s t : State} {b : Bool} {rest : List Input} (hp : s.gen.phase = .idle) (hi : s.inputs = .clk b :: rest)
    (h : (fetchClock b { s with inputs := rest }).outcome = .next t) : Transition s t := by
  unfold fetchClock at h
  split at h
  next m hc =>
    split at h
    next hb =>
      obtain ⟨rfl, hk⟩ : b = true ∧ m.clk = false := by simpa using hb
      rw [show m.sampled = SeqModule.sampled { m with clk := true } from rfl, sampled_outcome] at h
      cases h
      simp only
      split
      next hr => exact .loaded m rest hp hc hi hk hr
      next hr => exact .advanced m rest hp hc hi hk (by simpa using hr)
    · rw [nets_sequential] at h
      cases h
      exact .wires m rest b m.rst m.seed hp hc (.inr ⟨_, hi⟩)
  · cases h

/-- The reset wire. -/
theorem reset_next {s t : State} {b : Bool} {rest : List Input} (hp : s.gen.phase = .idle) (hi : s.inputs = .rst b :: rest)
    (h : (fetchReset b { s with inputs := rest }).outcome = .next t) : Transition s t := by
  unfold fetchReset at h
  split at h
  next m hc =>
    rw [nets_sequential] at h
    cases h
    exact .wires m rest m.clk b m.seed hp hc (.inr ⟨_, hi⟩)
  · cases h

/-- The seed wires. -/
theorem seed_next {s t : State} {w : Nat} {x : Word w} {rest : List Input} (hp : s.gen.phase = .idle)
    (hi : s.inputs = .seed w x :: rest) (h : (fetchSeed w x { s with inputs := rest }).outcome = .next t) :
    Transition s t := by
  unfold fetchSeed at h
  split at h
  next m hc =>
    split at h
    next v _ =>
      rw [nets_sequential] at h
      cases h
      exact .wires m rest m.clk m.rst v hp hc (.inr ⟨_, hi⟩)
    · cases h
  next m hc =>
    split at h
    next v _ =>
      rw [nets_parallel] at h
      cases h
      exact .outputs m rest v hp hc (.inr ⟨_, hi⟩)
    · cases h
  · cases h

/-- EXPAND goes on with the schedule. -/
theorem execExpand_next {p : Polynomial} {n : Nat} {s t : State} (h : execExpand p n s = .next t) :
    t = s.setSchedule (expand p n) := by
  unfold execExpand at h
  split at h
  · cases h
  · cases h; rfl

/-- The third place of R64. -/
theorem build_next {s t : State} (hp : s.gen.phase = .build) (h : (fetchBuild s).outcome = .next t) : Transition s t := by
  unfold fetchBuild at h
  split at h
  · cases h
  next p hg hm => cases h; exact .synthesized p hp hg hm
  next p hg hm =>
    simp only [Fetched.outcome, decode, decodeElaborate, exec] at h
    rw [execExpand_next h]
    exact .expanded p hp hg hm

/-- Emission. -/
theorem emit_next {s t : State} (hp : s.gen.phase = .emit) (h : emit s = .next t) : Transition s t := by
  unfold emit at h
  split at h
  next q chain hg hc =>
    cases h
    obtain ⟨p, hg, hq⟩ := Option.bind_eq_some_iff.mp hg
    obtain ⟨hm, rfl, -⟩ := configure_some hq
    exact .emittedSequential q chain hp hm.symm hg hc
  next q n pos sc hg hc =>
    cases h
    obtain ⟨p, hg, hq⟩ := Option.bind_eq_some_iff.mp hg
    obtain ⟨hm, rfl, hn⟩ := configure_some hq
    exact .emittedParallel q n pos sc hp hm.symm (Option.some.inj (hn hm.symm)) hg hc
  · cases h

/-- Every step that goes on is one of the transitions. -/
theorem step_transition {s t : State} (h : step s = .next t) : Transition s t := by
  rw [step_eq_outcome] at h
  unfold fetch at h
  split at h
  next hp =>
    unfold fetchInput at h
    split at h
    next hi => exact nets_next hp hi h
    next call rest hi => cases h; exact .started call rest hp hi
    next b rest hi => exact clock_next hp hi h
    next b rest hi => exact reset_next hp hi h
    next w x rest hi => exact seed_next hp hi h
    next rest hi => rw [observe_next h]; exact .observed rest hp hi
  next hp =>
    rw [literal_outcome] at h
    rcases finishParse_next h with ⟨p, hr, rfl⟩ | ⟨e, hr, rfl⟩
    · exact .parsed p hp hr
    · exact .rejected e hp hr
  next hp => cases h; exact .checked hp
  next hp => exact build_next hp h
  next hp => exact emit_next hp h

end Sys2Proof.Machine
end

