-- ==== Sys2Proof/Tests/Slice0.lean ====
section
/-! SUPPORT. The model's own tests: the well-formedness smoke, codes written out from the spec's encodings, the worked vectors of
`95_test_vectors.md` one step each, and a witness for the hypotheses of every statement. -/

namespace Sys2Proof.Machine.Tests

/-! ## Well-formedness: an ill-formed term for each check -/

theorem test_wf_bin_needs_its_prefix : (Instr.parseBin ['0', 'x', '1']).wf = false := by decide
theorem test_wf_hex_needs_its_prefix : (Instr.parseHex ['0', 'b', '1']).wf = false := by decide
theorem test_wf_short_literal : (Instr.parseBin ['0']).wf = false := by decide
theorem test_wf_seed_has_bits : (Instr.loadSeed 0 0#0).wf = false := by decide
theorem test_wf_record_has_bits : (Instr.step 0 0#0).wf = false := by decide
theorem test_wf_good : (Instr.loadSeed 1 0#1).wf = true := by decide
theorem test_width_positive : ¬ LegalTaps 0 [] := by decide
theorem test_taps_ascending : ¬ LegalTaps 3 [1, 0, 2] := by decide
theorem test_taps_without_repeats : ¬ LegalTaps 3 [2, 2] := by decide
theorem test_taps_below_width : ¬ LegalTaps 3 [2, 3] := by decide
theorem test_top_tap : ¬ LegalTaps 3 [0, 1] := by decide
theorem test_taps_legal : LegalTaps 6 [1, 2, 4, 5] := by decide
/-- R21, R153: parallel mode with `N = 0` has no configuration; sequential mode has one, without `N`. -/
theorem test_configure (n : Int) :
    configure { GenCall.reset with mode := .parallel, outWidth := 0 } ⟨1, [0], rfl⟩ = none ∧
    (configure { GenCall.reset with outWidth := n } ⟨1, [0], rfl⟩).map Configuration.outWidth = some none := ⟨rfl, rfl⟩

/-! ## Decoding: codes written out from the spec -/

/-- The operation a code decodes to, if any. -/
def decoded (c : Code) : Option Instr :=
  match decode c with
  | .ok i => some i
  | .error _ => none

/-- R50: characters `0` `b` (0x30, 0x62), then digits. -/
theorem test_decode_parse_bin :
    decoded (.literal [Char.ofNat 0x30, Char.ofNat 0x62, '1', '1']) = some (.parseBin ['0', 'b', '1', '1']) := by decide
/-- R50: characters `0` `x` (0x30, 0x78), then digits. -/
theorem test_decode_parse_hex :
    decoded (.literal [Char.ofNat 0x30, Char.ofNat 0x78, 'b', '8']) = some (.parseHex ['0', 'x', 'b', '8']) := by decide
/-- R61, R62, P1 edge 0: `1 | 000001`. -/
theorem test_decode_load_seed : decoded (.record 6 0b1000001#7) = some (.loadSeed 6 0b000001#6) := by decide
/-- R61, R62, P2 edge 2: `0 | 111111`. -/
theorem test_decode_step : decoded (.record 6 0b0111111#7) = some (.step 6 0b111111#6) := by decide
/-- R62: no field selects the net. -/
theorem test_decode_feedback : decoded (.always .sequential) = some .feedback := by decide
/-- R63: no field selects EVAL. -/
theorem test_decode_eval : decoded (.always .parallel) = some .eval := by decide
/-- R64: the mode selects EXPAND. -/
theorem test_decode_expand :
    decoded (.elaborate .parallel ⟨2, [0, 1], rfl⟩ 6) = some (.expand ⟨2, [0, 1], rfl⟩ 6) := by decide
/-- R64: sequential elaboration is no row of the table. -/
theorem test_decode_sequential_build : decoded (.elaborate .sequential ⟨2, [0, 1], rfl⟩ 6) = none := by decide
/-- R56: an upper-case prefix is none. -/
theorem test_decode_upper_case_prefix : decoded (.literal ['0', 'B', '1', '1']) = none := by decide
/-- The table's PARSE_BIN row: 16 bits, 0x3062. -/
theorem test_table_word_bin : decodeTableWord 16 0x3062 = some (.parseBin ['0', 'b']) := by decide
/-- The table's PARSE_HEX row: 16 bits, 0x3078. -/
theorem test_table_word_hex : decodeTableWord 16 0x3078 = some (.parseHex ['0', 'x']) := by decide
/-- Digits follow the prefix, one byte each: `0b10` (log 5). -/
theorem test_table_word_digits : decodeTableWord 32 0x30313062 = some (.parseBin ['0', 'b', '1', '0']) := by decide

/-! ## States the tests use -/

/-- `0b110110` (S1). -/
abbrev p6 : Polynomial := ⟨6, [1, 2, 4, 5], rfl⟩
/-- A sequential module of `0b110110` with a register. -/
abbrev seqOf (r : Option (Word 6)) (c : Option Nat) : SeqModule :=
  { poly := p6, clk := false, rst := false, seed := 0b010101#6, reg := r, fb := r.map (fun v => xorbits v p6.taps), cycle := c }
/-- A state with that module. -/
abbrev seqState (r : Option (Word 6)) (c : Option Nat) : State :=
  { State.reset with circuit := some (.sequential (seqOf r c)) }
/-- A parallel module of `0b110110` with `N = 8`. -/
abbrev parOf (seed : Word 6) : ParModule :=
  { poly := p6, n := 8, pos := by decide, trees := expand p6 8, seed := seed, out := evalTrees (expand p6 8) seed 8 }
/-- A state with that module. -/
abbrev parState (seed : Word 6) : State := { State.reset with circuit := some (.parallel (parOf seed)) }
/-- A call of `0b110110`. -/
abbrev callOf (mode : Mode) (n : Int) : GenCall :=
  { mode := mode, genPoly := ['0', 'b', '1', '1', '0', '1', '1', '0'], outWidth := n, namePrefix := ['v'], suffix := .bin }
/-- A state at a place of a call. -/
abbrev callState (mode : Mode) (n : Int) (phase : Phase) (poly : Option Polynomial) (chain : Option Term)
    (sched : Option Schedule) : State :=
  { State.reset with
    gen := { call := callOf mode n, phase := phase, poly := poly, chain := chain, sched := sched, error := none } }

/-- A projection of the next state, if there is one. -/
def after {α : Type} (o : Host.Outcome State Fault Refusal) (f : State → Option α) : Option α :=
  match o with
  | .next s => f s
  | .fault _ => none
  | .refused _ => none

/-- The fault, if the outcome is one. -/
def faultOf : Host.Outcome State Fault Refusal → Option Fault
  | .fault f => some f
  | _ => none

/-- The refusal, if the outcome is one. -/
def refusalOf : Host.Outcome State Fault Refusal → Option Refusal
  | .refused r => some r
  | _ => none

/-- The sequential module's register as a number, if it holds one, with the bookkeeping. -/
def register (s : State) : Option (Option Nat × Option Nat) :=
  match s.circuit with
  | some (.sequential m) => some (m.reg.map BitVec.toNat, m.cycle)
  | _ => none

/-- The sequential module's net. -/
def net (s : State) : Option (Option Bool) :=
  match s.circuit with
  | some (.sequential m) => some m.fb
  | _ => none

/-- The parallel module's output as a number. -/
def output (s : State) : Option Nat :=
  match s.circuit with
  | some (.parallel m) => some m.out.toNat
  | _ => none

/-! ## Vectors of `95_test_vectors.md` -/

/-- 2.1: a leading zero adds no width. -/
theorem test_parse_bin_leading_zero :
    after (exec (.parseBin ['0', 'b', '0', '1', '1', '0', '1', '1', '0']) State.reset) (·.gen.poly) = some p6 := by
  decide
/-- 2.1: `0b12` is malformed. -/
theorem test_parse_bin_bad_digit :
    after (exec (.parseBin ['0', 'b', '1', '2']) State.reset) (·.gen.error) =
      some (.malformedPolynomial ['0', 'b', '1', '2']) := by decide
/-- 2.1: `0xB8`, `W = 8`, `T = {3,4,5,7}`. -/
theorem test_parse_hex_upper :
    after (exec (.parseHex ['0', 'x', 'B', '8']) State.reset) (·.gen.poly) = some ⟨8, [3, 4, 5, 7], rfl⟩ := by decide
/-- 2.1: `0x0` is ZeroPolynomial. -/
theorem test_parse_hex_zero :
    after (exec (.parseHex ['0', 'x', '0']) State.reset) (·.gen.error) = some (.zeroPolynomial ['0', 'x', '0']) := by decide
/-- 2.2: `100000` gives 1. -/
theorem test_feedback_top_tap : after (exec .feedback (seqState (some 0b100000#6) none)) net = some (some true) := by decide
/-- 2.2: bit 0 is not a tap. -/
theorem test_feedback_not_a_tap : after (exec .feedback (seqState (some 0b000001#6) none)) net = some (some false) := by decide
/-- 2.3: LOAD_SEED from an uninitialised register. -/
theorem test_load_seed_initialises :
    after (exec (.loadSeed 6 0b101011#6) (seqState none none)) register = some (some 0b101011, some 0) := by decide
/-- 2.3: `101011` steps to `010110`. -/
theorem test_step_vector :
    after (exec (.step 6 0b111111#6) (seqState (some 0b101011#6) (some 4))) register = some (some 0b010110, some 5) := by decide
/-- 2.3: an uninitialised register stays so. -/
theorem test_step_uninitialised :
    after (exec (.step 6 0#6) (seqState none none)) register = some (none, none) := by decide
/-- 2.4, cycles 0 to 7. -/
theorem test_expand_vector :
    after (exec (.expand p6 8) State.reset) (·.gen.sched) =
      some [[1, 2, 4, 5], [0, 1, 3, 4], [0, 1, 3, 4, 5], [0, 1, 3, 5], [0, 1, 5], [0, 1, 2, 5], [0, 2, 5], [2, 5]] := by decide
/-- 2.4, `0b1001`. -/
theorem test_expand_other :
    expand ⟨4, [0, 3], rfl⟩ 8 = [[0, 3], [0, 2, 3], [0, 1, 2, 3], [1, 2, 3], [0, 1, 2], [1, 3], [0, 2], [0, 1, 3]] := by decide
/-- 2.5: seed `101011` gives `10110010`. -/
theorem test_eval_vector : after (exec .eval (parState 0b101011#6)) output = some 0b10110010 := by decide
/-- 2.5: seed `000001` gives `01111110`. -/
theorem test_eval_one : after (exec .eval (parState 0b000001#6)) output = some 0b01111110 := by decide
/-- 2.7: `{3,4,5,7}`. -/
theorem test_render :
    renderPolynomial [3, 4, 5, 7] =
      ['x', '^', '8', ' ', '+', ' ', 'x', '^', '6', ' ', '+', ' ', 'x', '^', '5', ' ', '+', ' ', 'x', '^', '4', ' ', '+', ' ', '1'] := by
  decide
/-- 2.8: `0b11` with `N = -3`. -/
theorem test_negative_width :
    after (step (callState .parallel (-3) .width (some p6) none none)) (·.gen.error) = some (.invalidOutputWidth (-3)) := by decide
/-- P5: observing before any reset. -/
theorem test_observe_uninitialised :
    faultOf (step { seqState none none with inputs := [.observe] }) = some .uninitialisedRead := by decide
/-- R87: an active edge with `rst = 1` loads the seed wires. -/
theorem test_edge_reset_wins :
    after (step { State.reset with
      circuit := some (.sequential { seqOf (some 0b111111#6) (some 3) with rst := true }), inputs := [.clk true] }) register =
      some (some 0b010101, some 0) := by decide
/-- R177: `rst` between edges does nothing to the register. -/
theorem test_reset_is_synchronous :
    after (step { seqState (some 0b111111#6) (some 3) with inputs := [.rst true] }) register = some (some 0b111111, some 3) := by
  decide
/-- The first step after reset runs the placed literal, and `0b` without digits is malformed (R71). -/
theorem test_fetch_word_runs :
    after (step (State.reset.withFetchWord 16 0x3062)) (·.gen.error) = some (.malformedPolynomial ['0', 'b']) := by decide
/-- With digits the placed literal parses: `0b10`. -/
theorem test_fetch_word_parses :
    after (step (State.reset.withFetchWord 32 0x30313062)) (·.gen.poly) = some ⟨2, [1], rfl⟩ := by decide

/-! ## Witnesses: the hypotheses of each statement hold together somewhere, each clause at a boundary -/

theorem witness_DecodeOfEncode : (Instr.step 1 1#1).wf = true ∧ (Instr.parseBin ['0', 'b']).wf = true := by decide
theorem witness_EncodeOfDecode : decode (.record 1 0b10#2) = .ok (.loadSeed 1 0#1) := rfl
theorem witness_RecordSelectsByReset : 0 < (1 : Nat) := by decide
theorem witness_ParseBinResult_value :
    [('1', 1)] ≠ [] ∧ (∀ d ∈ [('1', 1)], d ∈ binaryDigits) ∧ 0 < digitsValue 2 [('1', 1)] := by decide
theorem witness_ParseBinResult_zero :
    [('0', 0)] ≠ [] ∧ (∀ d ∈ [('0', 0)], d ∈ binaryDigits) ∧ digitsValue 2 [('0', 0)] = 0 := by decide
theorem witness_ParseBinResult_malformed :
    ∀ ds : List (Char × Nat), ds ≠ [] → (∀ d ∈ ds, d ∈ binaryDigits) → ['0', 'b'] ≠ literalText 'b' ds := by
  intro ds h _ e
  cases ds
  · exact h rfl
  · simp [literalText] at e
theorem witness_ParseHexResult_value :
    [('F', 15)] ≠ [] ∧ (∀ d ∈ [('F', 15)], d ∈ hexDigits) ∧ 0 < digitsValue 16 [('F', 15)] := by decide
theorem witness_ParseHexResult_zero :
    [('0', 0)] ≠ [] ∧ (∀ d ∈ [('0', 0)], d ∈ hexDigits) ∧ digitsValue 16 [('0', 0)] = 0 := by decide
theorem witness_ParseHexResult_malformed :
    ∀ ds : List (Char × Nat), ds ≠ [] → (∀ d ∈ ds, d ∈ hexDigits) → ['0', 'x'] ≠ literalText 'x' ds := by
  intro ds h _ e
  cases ds
  · exact h rfl
  · simp [literalText] at e

/-- A state whose call waits with a literal. -/
abbrev literalState (lit : Literal) : State := State.reset.placeLiteral lit

theorem witness_BadDigitsEndTheCall_bin :
    (literalState ['0', 'b', '1', '2']).gen.phase = .parse ∧
    ((literalState ['0', 'b', '1', '2']).gen.call.genPoly = '0' :: 'b' :: ['1', '2']) ∧
    ∃ c ∈ ['1', '2'], c ∉ binaryDigits.map Prod.fst := ⟨rfl, rfl, '2', by decide, by decide⟩
theorem witness_BadDigitsEndTheCall_hex :
    (literalState ['0', 'x']).gen.phase = .parse ∧ (literalState ['0', 'x']).gen.call.genPoly = '0' :: 'x' :: [] := by decide
theorem witness_UnprefixedLiteralEndsTheCall :
    (literalState ['1', '1']).gen.phase = .parse ∧
    ∀ ds, (literalState ['1', '1']).gen.call.genPoly ≠ '0' :: 'b' :: ds ∧
      (literalState ['1', '1']).gen.call.genPoly ≠ '0' :: 'x' :: ds :=
  ⟨rfl, fun ds => ⟨fun h => by simp [State.placeLiteral, State.startCall] at h,
    fun h => by simp [State.placeLiteral, State.startCall] at h⟩⟩
theorem witness_EveryLiteralHasOneOutcome : (literalState []).gen.phase = .parse := rfl
theorem witness_EquivalentLiterals :
    (∀ d ∈ [('1', 1), ('1', 1)], d ∈ binaryDigits) ∧ (∀ d ∈ [('3', 3)], d ∈ hexDigits) ∧
    (∀ d ∈ [('0', 0), ('1', 1), ('1', 1)], d ∈ binaryDigits) ∧ 0 < digitsValue 2 [('1', 1), ('1', 1)] ∧
    digitsValue 2 [('1', 1), ('1', 1)] = digitsValue 16 [('3', 3)] ∧
    digitsValue 2 [('1', 1), ('1', 1)] = digitsValue 2 [('0', 0), ('1', 1), ('1', 1)] := by decide
theorem witness_FeedbackNet_register :
    (seqState (some 0#6) none).circuit = some (.sequential (seqOf (some 0#6) none)) ∧ (seqOf (some 0#6) none).reg = some 0#6 :=
  ⟨rfl, rfl⟩
/-- Also for StepResult's second clause. -/
theorem witness_FeedbackNet_uninitialised :
    (seqState none none).circuit = some (.sequential (seqOf none none)) ∧ (seqOf none none).reg = none := ⟨rfl, rfl⟩
/-- Also for LastLoadWins, LoadThenStepsResult and ZeroSeedLocksUp. -/
theorem witness_LoadSeedResult : (seqState none none).circuit = some (.sequential (seqOf none none)) := rfl
theorem witness_StepResult :
    (seqState (some 0b111111#6) none).circuit = some (.sequential (seqOf (some 0b111111#6) none)) ∧
    (seqOf (some 0b111111#6) none).reg = some 0b111111#6 := ⟨rfl, rfl⟩
theorem witness_StepIsBijective : (1#6 : Word p6.width) ≠ 0#p6.width ∧ (1 : Nat) ≤ 5 ∧ 5 < p6.width := by decide
/-- For SequenceClosedForm: each clause at a boundary. -/
theorem witness_SequenceClosedForm : (5 : Nat) < p6.width ∧ p6.width ≤ 6 := by decide
theorem witness_SeedComesBack :
    (seqState none none).circuit = some (.sequential (seqOf none none)) ∧
    (0b100000#6 : Word (seqOf none none).poly.width) ≠ 0#(seqOf none none).poly.width := ⟨rfl, by decide⟩
theorem witness_ExpandResult : (0 : Nat) < (expand p6 1).length := by decide
/-- Also for ExpanderAgreesWithEngine. -/
theorem witness_SnapshotClosedForm : (2 : Nat) ≤ 2 ∧ (5 : Nat) < p6.width := by decide
theorem witness_RepeatedIndexCancels : ∀ S ∈ ([[0], [], [0, 3]] : Snapshot), S.Pairwise (· < ·) := by decide
theorem witness_SchedulesArePrefixes : (0 : Nat) ≤ 3 := by decide
theorem witness_SchedulesRepeat :
    (∀ v : Word 1, stateAfter [0] v 1 = v) ∧ (0 : Nat) + 1 < 2 := by decide
theorem witness_EvalResult : (parState 0#6).circuit = some (.parallel (parOf 0#6)) := rfl
theorem witness_EvalAgreesWithEngine :
    (parState 1#6).circuit = some (.parallel (parOf 1#6)) ∧ (parOf 1#6).Sound ∧
    (seqState none none).circuit = some (.sequential (seqOf none none)) ∧ (seqOf none none).poly = (parOf 1#6).poly ∧
    7 < (parOf 1#6).n ∧ 5 < (parOf 1#6).poly.width :=
  ⟨rfl, ⟨rfl, rfl⟩, rfl, rfl, by decide, by decide⟩
/-- Also for ScheduleIsMatrixPower. -/
theorem witness_OutputRecurrence : (7 : Nat) < (expand p6 8).length := by decide
theorem witness_StepRunsTheDecoded_literal :
    (literalState ['0', 'b']).gen.phase = .parse ∧
    decode (.literal (literalState ['0', 'b']).gen.call.genPoly) = .ok (.parseBin ['0', 'b']) := ⟨rfl, rfl⟩
theorem witness_StepRunsTheDecoded_edge :
    (seqState none none).gen.phase = .idle ∧ (seqOf none none).clk = false ∧
    decode (.record (seqOf none none).poly.width (BitVec.cons (seqOf none none).rst (seqOf none none).seed)) =
      .ok (.step 6 0b010101#6) := ⟨rfl, rfl, rfl⟩
theorem witness_StepRunsTheDecoded_build :
    (callState .parallel 1 .build (some p6) none none).gen.phase = .build ∧
    decoded (.elaborate .parallel p6 1) = some (.expand p6 1) := by decide
theorem witness_StepRunsTheDecoded_nets :
    (parState 0#6).gen.phase = .idle ∧ (parState 0#6).inputs = [] ∧
    decode (.always (Circuit.parallel (parOf 0#6)).mode) = .ok .eval := ⟨rfl, rfl, rfl⟩
/-- For ActiveEdge with `rst = 0`, with and without a register. -/
theorem witness_ActiveEdge (r : Option (Word 6)) :
    (seqState r none).gen.phase = .idle ∧ (seqOf r none).clk = false ∧
    (seqOf r none).rst = false ∧ (seqOf r none).reg = r := ⟨rfl, rfl, rfl, rfl⟩
/-- For ActiveEdge with `rst = 1`. -/
theorem witness_ActiveEdge_reset :
    ({ seqOf none none with rst := true } : SeqModule).rst = true ∧ ({ seqOf none none with rst := true } : SeqModule).clk = false :=
  ⟨rfl, rfl⟩
theorem witness_RegisterHoldsBetweenEdges :
    after (step { seqState none none with inputs := [.seed 6 1#6] }) register = some (none, none) ∧
    after (step (seqState none none)) register = some (none, none) := by decide
theorem witness_RegisterHoldsBetweenEdges_clock :
    ({ seqOf none none with clk := true } : SeqModule).clk = true ∧
    after (step { State.reset with circuit := some (.sequential { seqOf none none with clk := true }), inputs := [.clk true] })
      register = some (none, none) := by decide
/-- A clock driven low, from either level. -/
theorem witness_RegisterHoldsBetweenEdges_low (level : Bool) :
    after (step { State.reset with
      circuit := some (.sequential { seqOf (some 1#6) (some 2) with clk := level }), inputs := [.clk false] }) register =
      some (some 1, some 2) := by cases level <;> decide

/-- The input wires of the sequential module: clock, reset, seed. -/
def wires (s : State) : Option (Bool × Bool × Nat) :=
  match s.circuit with
  | some (.sequential m) => some (m.clk, m.rst, m.seed.toNat)
  | _ => none
/-- A module whose clock wire is high, with one pending event. -/
abbrev highState (e : Input) : State :=
  { State.reset with circuit := some (.sequential { seqOf none none with clk := true }), inputs := [e] }

/-- For WiresTakeTheirLevels: the four clauses. -/
theorem witness_WiresTakeTheirLevels :
    (highState (.rst true)).gen.phase = .idle ∧ ({ seqOf none none with clk := true } : SeqModule).clk = true ∧
    (highState (.seed 6 1#6)).inputs = [.seed (seqOf none none).poly.width 1#6] ∧
    after (step (highState (.rst true))) wires = some (true, true, 0b010101) ∧
    after (step (highState (.seed 6 1#6))) wires = some (true, false, 1) ∧
    after (step (highState (.clk false))) wires = some (false, false, 0b010101) ∧
    after (step (highState (.clk true))) wires = some (true, false, 0b010101) :=
  ⟨rfl, rfl, rfl, by decide, by decide, by decide, by decide⟩
theorem witness_OutputsFollowTheSeed :
    after (step { parState 0#6 with inputs := [.seed 6 0b100000#6] }) output = some 0b11111101 := by decide
/-- For ObservationOfState: the three clauses. -/
theorem witness_ObservationOfState :
    faultOf (step { seqState none none with inputs := [.observe] }) = some .uninitialisedRead ∧
    after (step { seqState (some 0#6) none with inputs := [.observe] }) register = some (some 0, none) ∧
    after (step { parState 0#6 with inputs := [.observe] }) output = some 0 := by decide
theorem witness_OutWidthCheck :
    (callState .parallel 0 .width (some p6) none none).gen.call.outWidth < 1 ∧
    (callState .sequential 0 .width (some p6) none none).gen.call.mode = .sequential ∧
    1 ≤ (callState .parallel 1 .width (some p6) none none).gen.call.outWidth := by decide
/-- For GenerationCallOutcome and EmissionIsDeterministic: each outcome of a call. -/
theorem witness_GenerationCallOutcome :
    State.reset.gen.phase = .idle ∧
    parseLiteral ['0', 'b', '1'] = .ok ⟨1, [0], rfl⟩ ∧ parseLiteral ['0', 'x', '1'] = .ok ⟨1, [0], rfl⟩ ∧
    parseLiteral ['1'] = .error (.malformedPolynomial ['1']) := ⟨rfl, rfl, rfl, rfl⟩
theorem witness_SequentialEmission :
    (callState .sequential 0 .emit (some p6) (some p6.taps) none).gen.phase = .emit ∧
    (callState .sequential 0 .emit (some p6) (some p6.taps) none).gen.chain = some p6.taps := ⟨rfl, rfl⟩
theorem witness_ParallelEmission :
    (callState .parallel 1 .emit (some p6) none (some [[1, 2, 4, 5]])).gen.phase = .emit ∧
    (callState .parallel 1 .emit (some p6) none (some [[1, 2, 4, 5]])).gen.sched = some [[1, 2, 4, 5]] ∧
    (callState .parallel 1 .emit (some p6) none (some [[1, 2, 4, 5]])).gen.call.outWidth = (1 : Nat) ∧
    (0 : Nat) < [[1, 2, 4, 5]].length := ⟨rfl, rfl, rfl, by decide⟩
/-- R146: what the banner states, for `0b110110` (R143's example). -/
theorem test_banner :
    after (step (callState .sequential 0 .emit (some p6) (some p6.taps) none)) (fun s => s.text.map (·.opening)) =
      some { statesGenerated := true, statesNoHandEdit := true, width := 6
             polynomial := "x^6 + x^5 + x^3 + x^2 + 1".toList } := by decide

/-- The text of a module, for the states below. -/
abbrev someText : GeneratedModule := { opening := banner p6, name := [], ports := [], body := [] }
/-- An idle state of the invariant with an uninitialised sequential module. -/
abbrev liveState (inputs : List Input) : State := { seqState none none with text := some someText, inputs := inputs }

/-- For StepKeepsTheInvariant, ConfigurationIsFixed, OnlyObservationFaults and OnlyForeignPortsAreRefused. -/
theorem witness_invariant (inputs : List Input) : (liveState inputs).Inv := by
  refine ⟨⟨?_, ?_, ?_, ?_, ?_, ?_⟩, ?_, ?_, ?_, rfl⟩
  all_goals try simp [State.reset, Generator.reset]
  exact ⟨rfl, rfl⟩
theorem witness_ConfigurationIsFixed :
    after (step (liveState [])) register = some (none, none) ∧
    after (step (liveState [.generate GenCall.reset])) (fun s => some s.circuit.isNone) = some true := by decide
theorem witness_OnlyObservationFaults : faultOf (step (liveState [.observe])) = some .uninitialisedRead := by decide
theorem witness_OnlyForeignPortsAreRefused :
    refusalOf (step (liveState [.seed 5 0#5])) = some .portWidth ∧
    refusalOf (step { State.reset with inputs := [.observe] }) = some .noSuchPort ∧
    refusalOf (step { parState 0#6 with inputs := [.rst true] }) = some .noSuchPort ∧
    refusalOf (step { parState 0#6 with inputs := [.seed 7 0#7] }) = some .portWidth := by decide
theorem witness_NoModuleNoOperation :
    (∀ m, State.reset.circuit ≠ some (.sequential m)) ∧ (∀ m, (seqState none none).circuit ≠ some (.parallel m)) :=
  by
  constructor <;> intro m h <;> cases h
theorem witness_ForeignRecordIsRefused :
    (seqState none none).circuit = some (.sequential (seqOf none none)) ∧ 5 ≠ (seqOf none none).poly.width := ⟨rfl, by decide⟩

end Sys2Proof.Machine.Tests
end

section
/-! PROOFS. The polynomial model (`40_polynomial_model.md`): the digits of a literal, its value, FromValue, and the outcomes of
PARSE_BIN, PARSE_HEX and the parse step. -/

namespace Sys2Proof.Machine

/-! Digits: a digit function reads exactly the characters its table lists, each with the value listed (R51 to R53). -/

/-- `digit` is the table `table` of characters and their values. -/
def ReadsTable (digit : Char → Option Nat) (table : List (Char × Nat)) : Prop :=
  ∀ c v, digit c = some v ↔ (c, v) ∈ table

theorem binDigit_readsTable : ReadsTable binDigit binaryDigits := by
  intro c v
  unfold binDigit
  split_ifs with h0 h1
  · simp [binaryDigits, h0, eq_comm]
  · simp [binaryDigits, h1, eq_comm]
  · simp [binaryDigits, h0, h1]

/-- No character after `f` is a hexadecimal digit. -/
theorem toNat_le_of_hexDigit {c : Char} {v : Nat} (h : hexDigit c = some v) : c.toNat ≤ 'f'.toNat := by
  unfold hexDigit at h
  split_ifs at h with hdec hlow hup
  · exact hdec.2.trans (by decide : '9' ≤ 'f')
  · exact hlow.2
  · exact hup.2.trans (by decide : 'F' ≤ 'f')

theorem mem_hexDigits_of_hexDigit {c : Char} {v : Nat} (h : hexDigit c = some v) : (c, v) ∈ hexDigits := by
  have table : ∀ n ≤ 'f'.toNat, ∀ v ∈ hexDigit (Char.ofNat n), (Char.ofNat n, v) ∈ hexDigits := by decide
  simpa [h] using table c.toNat (toNat_le_of_hexDigit h)

theorem hexDigit_of_mem_hexDigits : ∀ d ∈ hexDigits, hexDigit d.1 = some d.2 := by decide

theorem hexDigit_readsTable : ReadsTable hexDigit hexDigits :=
  fun c v => ⟨mem_hexDigits_of_hexDigit, hexDigit_of_mem_hexDigits (c, v)⟩

/-! Digit strings and literals. -/

/-- A string that has a value is a string of digits (R56). -/
theorem digits_of_assemble {base : Nat} {digit : Char → Option Nat} {acc v : Nat} {cs : List Char}
    (h : assemble base digit acc cs = some v) :
    ∃ ds : List (Char × Nat), cs = ds.map Prod.fst ∧ ∀ d ∈ ds, digit d.1 = some d.2 := by
  induction cs generalizing acc with
  | nil => exact ⟨[], rfl, by simp⟩
  | cons c cs ih =>
    unfold assemble at h
    split at h
    next d hd =>
      obtain ⟨ds, rfl, hds⟩ := ih h
      exact ⟨(c, d) :: ds, rfl, List.forall_mem_cons.mpr ⟨hd, hds⟩⟩
    · cases h

section
variable {c : Char} {base : Nat} {digit : Char → Option Nat} {table : List (Char × Nat)}

/-- A literal of one or more digits has the value of its digits (R52, R53). -/
theorem literalValue_literalText (hread : ReadsTable digit table) {ds : List (Char × Nat)} (hne : ds ≠ [])
    (hds : ∀ d ∈ ds, d ∈ table) : literalValue c base digit (literalText c ds) = some (digitsValue base ds) := by
  have hdigit : ∀ d ∈ ds, digit d.1 = some d.2 := fun d hd => (hread d.1 d.2).mpr (hds d hd)
  simp [literalValue, literalText, hne, assemble_eq_ofDigits base digit 0 ds hdigit, digitsValue]

/-- Only a literal of one or more digits has a value (R51, R56). -/
theorem literalText_of_literalValue (hread : ReadsTable digit table) {lit : Literal} {v : Nat}
    (h : literalValue c base digit lit = some v) :
    ∃ ds : List (Char × Nat), ds ≠ [] ∧ (∀ d ∈ ds, d ∈ table) ∧ lit = literalText c ds := by
  unfold literalValue at h
  split at h
  next d cs =>
    split at h
    next hcs =>
      obtain ⟨rfl, hne⟩ := hcs
      obtain ⟨ds, rfl, hds⟩ := digits_of_assemble h
      exact ⟨ds, by simpa using hne, fun e he => (hread e.1 e.2).mp (hds e he), rfl⟩
    · cases h
  · cases h

theorem literalValue_eq_none (hread : ReadsTable digit table) {lit : Literal}
    (h : ∀ ds : List (Char × Nat), ds ≠ [] → (∀ d ∈ ds, d ∈ table) → lit ≠ literalText c ds) :
    literalValue c base digit lit = none := by
  refine Option.eq_none_iff_forall_ne_some.mpr fun v hv => ?_
  obtain ⟨ds, hne, hds, hlit⟩ := literalText_of_literalValue hread hv
  exact h ds hne hds hlit

end

/-! FromValue (R72). -/

theorem mem_setBits {v i : Nat} : i ∈ setBits v ↔ v.testBit i = true := by
  have hlow (h : v.testBit i = true) : i ≤ v.log2 := by
    have hle : 2 ^ i ≤ v := Nat.ge_two_pow_of_testBit h
    exact (Nat.le_log2 (Nat.two_pow_pos i |>.trans_le hle).ne').mpr hle
  simpa [setBits, Nat.lt_succ_iff] using hlow

/-- A positive value gives its Polynomial: its length in bits is the width and its set bits are the taps. -/
theorem fromValue_of_pos (lit : Literal) {v : Nat} (h : 0 < v) :
    ∃ p : Sys2Proof.Polynomial, p.IsOf v ∧ fromValue lit v = .ok p := by
  refine ⟨⟨v.log2 + 1, setBits v, setBits_legal h.ne'⟩, ?_, dif_neg h.ne'⟩
  exact
    { pos := Nat.succ_pos _
      low := Nat.log2_self_le h.ne'
      high := Nat.lt_log2_self
      order := List.pairwise_lt_range.filter _
      taps := fun _ => mem_setBits }

@[simp] theorem fromValue_zero (lit : Literal) : fromValue lit 0 = .error (.zeroPolynomial lit) := rfl

/-- The only errors of a parsed value are the zero and the malformed literal (R65). -/
theorem fromLiteral_error {lit : Literal} {value : Option Nat} {e : ElabError} (h : fromLiteral lit value = .error e) :
    e = .zeroPolynomial lit ∨ e = .malformedPolynomial lit := by
  unfold fromLiteral at h
  split at h
  next v =>
    rcases v.eq_zero_or_pos with rfl | hv
    · cases h; exact .inl rfl
    · obtain ⟨p, -, hp⟩ := fromValue_of_pos lit hv
      rw [hp] at h
      cases h
  · cases h; exact .inr rfl

/-- The same for a whole literal: its prefix chooses the base, and without one it is malformed (R74). -/
theorem parseLiteral_error {lit : Literal} {e : ElabError} (h : parseLiteral lit = .error e) :
    e = .zeroPolynomial lit ∨ e = .malformedPolynomial lit := by
  unfold parseLiteral at h
  split at h
  · exact fromLiteral_error h
  · split at h
    · exact fromLiteral_error h
    · cases h; exact .inr rfl

/-! The outcomes of a parse in one base. -/

/-- What a parse of base `base`, base character `c` and digits `digit` makes of a literal: PARSE_BIN and PARSE_HEX are its two
uses (R71, R73). -/
def execParse (c : Char) (base : Nat) (digit : Char → Option Nat) (lit : Literal) (s : State) :
    Host.Outcome State Fault Refusal :=
  finishParse (fromLiteral lit (literalValue c base digit lit)) s

theorem exec_parseBin (lit : Literal) (s : State) : exec (.parseBin lit) s = execParse 'b' 2 binDigit lit s := rfl

theorem exec_parseHex (lit : Literal) (s : State) : exec (.parseHex lit) s = execParse 'x' 16 hexDigit lit s := rfl

section
variable {c : Char} {base : Nat} {digit : Char → Option Nat} {table : List (Char × Nat)}

theorem execParse_of_pos (hread : ReadsTable digit table) {ds : List (Char × Nat)} (hne : ds ≠ [])
    (hds : ∀ d ∈ ds, d ∈ table) (s : State) (hpos : 0 < digitsValue base ds) :
    ∃ p : Sys2Proof.Polynomial, p.IsOf (digitsValue base ds) ∧
      execParse c base digit (literalText c ds) s = .next (s.setParsed p) := by
  obtain ⟨p, hp, hv⟩ := fromValue_of_pos (literalText c ds) hpos
  refine ⟨p, hp, ?_⟩
  simp only [execParse, literalValue_literalText hread hne hds, fromLiteral, hv, finishParse]

theorem execParse_of_zero (hread : ReadsTable digit table) {ds : List (Char × Nat)} (hne : ds ≠ [])
    (hds : ∀ d ∈ ds, d ∈ table) (s : State) (hzero : digitsValue base ds = 0) :
    execParse c base digit (literalText c ds) s = .next (s.failWith (.zeroPolynomial (literalText c ds))) := by
  simp only [execParse, literalValue_literalText hread hne hds, fromLiteral, hzero, fromValue_zero, finishParse]

theorem execParse_of_malformed (hread : ReadsTable digit table) {lit : Literal}
    (h : ∀ ds : List (Char × Nat), ds ≠ [] → (∀ d ∈ ds, d ∈ table) → lit ≠ literalText c ds) (s : State) :
    execParse c base digit lit s = .next (s.failWith (.malformedPolynomial lit)) := by
  simp only [execParse, literalValue_eq_none hread h, fromLiteral, finishParse]

end

/-- A step whose literal waits is the parse of that literal (R64, R74). -/
theorem step_of_parse {s : State} (hp : s.gen.phase = .parse) :
    step s = finishParse (parseLiteral s.gen.call.genPoly) s := by
  rw [step_eq_outcome, ← literal_outcome]
  simp only [fetch, hp]

/-- Settles O5: the parse outcomes at base 2, whose digits are exactly those of `binaryDigits`. -/
theorem parseBinResult : Obligations.ParseBinResult := by
  intro s
  simp only [exec_parseBin]
  refine ⟨fun ds hne hds => ⟨fun hpos => ?_, fun hzero => ?_⟩, fun lit h => ?_⟩
  · exact execParse_of_pos binDigit_readsTable hne hds s hpos
  · exact execParse_of_zero binDigit_readsTable hne hds s hzero
  · exact execParse_of_malformed binDigit_readsTable h s

/-- Settles O6: the parse outcomes at base 16, whose digits are exactly those of `hexDigits`. -/
theorem parseHexResult : Obligations.ParseHexResult := by
  intro s
  simp only [exec_parseHex]
  refine ⟨fun ds hne hds => ⟨fun hpos => ?_, fun hzero => ?_⟩, fun lit h => ?_⟩
  · exact execParse_of_pos hexDigit_readsTable hne hds s hpos
  · exact execParse_of_zero hexDigit_readsTable hne hds s hzero
  · exact execParse_of_malformed hexDigit_readsTable h s

/-- Settles O9: the parse gives a Polynomial, which carries its laws, or one of the two errors a literal can have. -/
theorem everyLiteralHasOneOutcome : Obligations.EveryLiteralHasOneOutcome := by
  intro s hp
  rw [step_of_parse hp]
  cases hr : parseLiteral s.gen.call.genPoly with
  | ok p => exact ⟨_, rfl, rfl, .inl ⟨p, p.valid, rfl, rfl⟩⟩
  | error e =>
    refine ⟨_, rfl, rfl, .inr ?_⟩
    rcases parseLiteral_error hr with rfl | rfl
    · exact .inl ⟨rfl, rfl⟩
    · exact .inr ⟨rfl, rfl⟩

end Sys2Proof.Machine
end

section
/-! PROOFS. The sequential engine (`41_sequential_engine.md`): what FEEDBACK, LOAD_SEED and STEP leave, the state sequence they
run through, and the active edge. -/

namespace Sys2Proof.Machine

/-! XOR over an index set as a parity (R14). -/

theorem parity_getLsbD {w : Nat} (v : Word w) (S : Term) : (parity S fun t => v.getLsbD t) = xorbits v S :=
  (xorbits_eq_parity v S).symm

theorem parity_congr {S : Term} {f g : Nat → Bool} (h : ∀ t ∈ S, f t = g t) : parity S f = parity S g := by
  unfold parity
  rw [List.filter_congr h]

/-! The shift (R89, R91, R92). -/

section
variable {w : Nat} (taps : Term)

/-- The vacated cell takes the feedback bit. -/
theorem getLsbD_shift_zero (v : Word w) (h : 0 < w) : (shift taps v).getLsbD 0 = xorbits v taps := by
  rw [getLsbD_shift, decide_eq_true h, Bool.true_and, if_pos rfl]

/-- Every other cell takes its lower neighbour's bit. -/
theorem getLsbD_shift_succ (v : Word w) {i : Nat} (h : i + 1 < w) : (shift taps v).getLsbD (i + 1) = v.getLsbD i := by
  rw [getLsbD_shift, decide_eq_true h, Bool.true_and, if_neg i.succ_ne_zero, Nat.add_sub_cancel]

theorem shift_xor (a b : Word w) : shift taps (a ^^^ b) = shift taps a ^^^ shift taps b := by
  refine BitVec.eq_of_getLsbD_eq fun i hi => ?_
  cases i with
  | zero => simp only [BitVec.getLsbD_xor, getLsbD_shift_zero taps _ hi, xorbits_xor]
  | succ i => simp only [BitVec.getLsbD_xor, getLsbD_shift_succ taps _ hi]

@[simp] theorem shift_zero : shift taps (0#w) = 0#w := by
  refine BitVec.eq_of_getLsbD_eq fun i _ => ?_
  simp [getLsbD_shift]

/-! The state sequence (R94). -/

theorem stateAfter_eq_iterate (v : Word w) (c : Nat) : stateAfter taps v c = (shift taps)^[c] v := by
  induction c with
  | zero => rfl
  | succ c ih => rw [Function.iterate_succ_apply', ← ih, stateAfter]

/-- A shift before `c` shifts is one more shift. -/
theorem stateAfter_shift (v : Word w) (c : Nat) : stateAfter taps (shift taps v) c = stateAfter taps v (c + 1) := by
  simp only [stateAfter_eq_iterate, Function.iterate_succ_apply]

@[simp] theorem stateAfter_zero_seed (c : Nat) : stateAfter taps (0#w) c = 0#w := by
  rw [stateAfter_eq_iterate, Function.iterate_fixed (shift_zero taps)]

/-- A seed bit moves up one cell a step; the cells below it hold the feedback bits, the latest in cell 0. -/
theorem getLsbD_stateAfter (v : Word w) (c : Nat) {i : Nat} (hi : i < w) :
    (stateAfter taps v c).getLsbD i = if c ≤ i then v.getLsbD (i - c) else feedbackAt taps v (c - 1 - i) := by
  induction c generalizing i with
  | zero => simp [stateAfter]
  | succ c ih =>
    cases i with
    | zero => exact getLsbD_shift_zero taps (stateAfter taps v c) hi
    | succ i =>
      have hbelow : c + 1 - 1 - (i + 1) = c - 1 - i := by omega
      rw [stateAfter, getLsbD_shift_succ taps _ hi, ih (Nat.lt_of_succ_lt hi), hbelow]
      simp only [Nat.add_le_add_iff_right, Nat.add_sub_add_right]

end

theorem feedbackAt_eq_parity (p : Polynomial) (v : Word p.width) (c : Nat) :
    feedbackAt p.taps v c =
      parity p.taps fun t => if c ≤ t then v.getLsbD (t - c) else feedbackAt p.taps v (c - 1 - t) := by
  obtain ⟨-, -, hbelow, -⟩ := p.valid
  unfold feedbackAt
  rw [← parity_getLsbD]
  exact parity_congr fun t ht => getLsbD_stateAfter p.taps v c (hbelow t ht)

/-! The module after each operation. -/

section
variable (m : SeqModule)

/-- The module with the register at `v` and the bookkeeping at `c`, its net settled: what a LOAD_SEED and any STEPs after it
leave (`load_eq_holding`, `advance_holding`). -/
def SeqModule.holding (v : Word m.poly.width) (c : Nat) : SeqModule :=
  { m with reg := some v, cycle := some c, fb := some (xorbits v m.poly.taps) }

theorem SeqModule.load_eq_holding (v : Word m.poly.width) : m.load v = m.holding v 0 := rfl

theorem SeqModule.advance_holding (v : Word m.poly.width) (c : Nat) :
    (m.holding v c).advance = m.holding (shift m.poly.taps v) (c + 1) := rfl

variable {m}

theorem SeqModule.settle_of_some {v : Word m.poly.width} (h : m.reg = some v) :
    m.settle = { m with fb := some (xorbits v m.poly.taps) } := by
  simp only [settle, feedbackNet, h, Option.map_some]

theorem SeqModule.settle_of_none (h : m.reg = none) : m.settle = { m with fb := none } := by
  simp only [settle, feedbackNet, h, Option.map_none]

theorem SeqModule.advance_of_some {v : Word m.poly.width} (h : m.reg = some v) :
    m.advance = { m with reg := some (shift m.poly.taps v), cycle := m.cycle.map (· + 1)
                         fb := some (xorbits (shift m.poly.taps v) m.poly.taps) } := by
  simp only [advance, settle, feedbackNet, h, Option.map_some]

theorem SeqModule.advance_of_none (h : m.reg = none) :
    m.advance = { m with reg := none, cycle := m.cycle.map (· + 1), fb := none } := by
  simp only [advance, settle, feedbackNet, h, Option.map_none]

end

/-! The operations of a state with a sequential module. -/

section
variable {s : State} {m : SeqModule}

theorem exec_feedback (h : s.circuit = some (.sequential m)) : exec .feedback s = .next (s.setSequential m.settle) := by
  simp only [exec, execFeedback, withSequential_of h]

theorem exec_loadSeed (h : s.circuit = some (.sequential m)) (v : Word m.poly.width) :
    exec (.loadSeed m.poly.width v) s = .next (s.setSequential (m.load v)) := by
  simp only [exec, execLoadSeed, withSequential_of h, portValue_self]

theorem exec_step (h : s.circuit = some (.sequential m)) (x : Word m.poly.width) :
    exec (.step m.poly.width x) s = .next (s.setSequential m.advance) := by
  simp only [exec, execStep, withSequential_of h, portValue_self]

/-- `k` STEPs take a register through `k` states of its sequence. -/
theorem repeatExec_step (s : State) (m : SeqModule) (x v : Word m.poly.width) (c k : Nat) :
    repeatExec (.step m.poly.width x) k (s.setSequential (m.holding v c)) =
      .next (s.setSequential (m.holding (stateAfter m.poly.taps v k) (c + k))) := by
  induction k generalizing v c with
  | zero => rfl
  | succ k ih =>
    have hstep : exec (.step m.poly.width x) (s.setSequential (m.holding v c)) =
        .next (s.setSequential (m.holding (shift m.poly.taps v) (c + 1))) :=
      exec_step (m := m.holding v c) rfl x
    rw [repeatExec, hstep]
    simp only [ih, stateAfter_shift, Nat.add_right_comm c 1 k, Nat.add_assoc]

/-- A LOAD_SEED and `k` STEPs leave state `k` of the seed's sequence (R94). -/
theorem loadThenSteps_eq (h : s.circuit = some (.sequential m)) (v x : Word m.poly.width) (k : Nat) :
    loadThenSteps m.poly.width v x k s = .next (s.setSequential (m.holding (stateAfter m.poly.taps v k) k)) := by
  simp only [loadThenSteps, exec_loadSeed h, m.load_eq_holding, repeatExec_step, Nat.zero_add]

/-- An active edge takes the event and raises the clock wire, and the module loads or advances as `rst` says (R87). -/
theorem step_of_rise {rest : List Input} (hp : s.gen.phase = .idle) (hc : s.circuit = some (.sequential m))
    (hk : m.clk = false) (hi : s.inputs = .clk true :: rest) :
    step s = .next ({ s with inputs := rest }.setSequential
      (if m.rst then SeqModule.load { m with clk := true } m.seed else SeqModule.advance { m with clk := true })) := by
  have hfetch : fetch s = .run (SeqModule.sampled { m with clk := true })
      ({ s with inputs := rest }.setSequential { m with clk := true }) := by
    simp [fetch, hp, fetchInput, hi, fetchClock, hc, hk, SeqModule.sampled]
  rw [step_eq_outcome, hfetch, sampled_outcome]

end

/-- Settles O11: FEEDBACK settles the net. -/
theorem feedbackNet : Obligations.FeedbackNet := by
  intro s m hc
  simp only [exec_feedback hc, parity_getLsbD]
  refine ⟨fun v hv => ?_, fun hn => ?_⟩
  · rw [SeqModule.settle_of_some hv]; rfl
  · rw [SeqModule.settle_of_none hn]; rfl

/-- Settles O12: LOAD_SEED does not read the register. -/
theorem loadSeedResult : Obligations.LoadSeedResult := by
  intro s m v hc
  rw [exec_loadSeed hc, parity_getLsbD]
  rfl

/-- Settles O13: STEP leaves the shifted register, whose bits `getLsbD_shift` gives. -/
theorem stepResult : Obligations.StepResult := by
  intro s m x hc
  simp only [exec_step hc, parity_getLsbD]
  refine ⟨fun v hv => ⟨shift m.poly.taps v, ?_, fun i hi => ?_⟩, fun hn => ?_⟩
  · rw [SeqModule.advance_of_some hv]; rfl
  · rw [getLsbD_shift, decide_eq_true hi, Bool.true_and]
  · rw [SeqModule.advance_of_none hn]; rfl

/-- Settles O17: the vacated cell's bit is linear because the XOR over the taps is; the other bits only move. -/
theorem stepIsLinear : Obligations.StepIsLinear :=
  fun _ taps a b => ⟨shift_xor taps a b, xorbits_xor a b taps⟩

/-- Settles O18: 0 is a fixed point of the shift, so every state of its sequence is 0. -/
theorem zeroSeedLocksUp : Obligations.ZeroSeedLocksUp := by
  intro k s m x hc
  rw [loadThenSteps_eq hc, stateAfter_zero_seed, SeqModule.holding, xorbits_zero]
  rfl

/-- Settles O21: the feedback bits are read off the cells of the state sequence; at `c >= W` every tap is below `c`. -/
theorem sequenceClosedForm : Obligations.SequenceClosedForm := by
  intro p v
  refine ⟨fun c i hi => getLsbD_stateAfter p.taps v c hi, feedbackAt_eq_parity p v, fun c hc => ?_⟩
  obtain ⟨-, -, hbelow, -⟩ := p.valid
  rw [feedbackAt_eq_parity]
  exact parity_congr fun t ht => if_neg (Nat.not_le.mpr ((hbelow t ht).trans_le hc))

/-- Settles O37: the rise runs one of the two operations, chosen by `rst`, on the module with its clock wire high. -/
theorem activeEdge : Obligations.ActiveEdge := by
  intro s m rest hp hc hk hi
  rw [step_of_rise hp hc hk hi]
  refine ⟨fun hr => ?_, fun v hr hv => ?_, fun hr hn => ?_⟩
  · rw [if_pos hr]; rfl
  · rw [if_neg (by simp [hr]), SeqModule.advance_of_some (m := { m with clk := true }) hv]; rfl
  · rw [if_neg (by simp [hr]), SeqModule.advance_of_none (m := { m with clk := true }) hn]; rfl

end Sys2Proof.Machine
end

section
/-! PROOFS. The symbolic cycle expander (`42_symbolic_cycle_expander.md`): the feedback term, the snapshots and their closed
form, the agreement with the engine, the matrix form, and what EXPAND leaves. -/

namespace Sys2Proof.Machine

/-! Parity over an index set (R14). -/

theorem parity_concat (S : Term) (t : Nat) (f : Nat → Bool) : parity (S ++ [t]) f = (parity S f ^^ f t) := by
  unfold parity
  rw [List.filter_append, List.length_append]
  cases ht : f t
  · simp [ht]
  · simp only [List.filter_cons, List.filter_nil, ht, if_true, List.length_singleton, Bool.xor_true, ← decide_not]
    exact decide_eq_decide.mpr (by omega)

theorem exists_of_parity {S : Term} {f : Nat → Bool} (h : parity S f = true) : ∃ t ∈ S, f t = true := by
  have hne : S.filter f ≠ [] := by
    intro he
    simp [parity, he] at h
  obtain ⟨t, ht⟩ := List.exists_mem_of_ne_nil _ hne
  exact ⟨t, List.mem_filter.mp ht⟩

/-! Terms of a `w`-bit seed. -/

/-- A term as EXPAND lists it: ascending indices of a `w`-bit seed (R17, log 20). -/
def IsSeedTerm (w : Nat) (S : Term) : Prop := S.Pairwise (· < ·) ∧ ∀ j ∈ S, j < w

theorem taps_isSeedTerm (p : Polynomial) : IsSeedTerm p.width p.taps := by
  obtain ⟨-, hasc, hbelow, -⟩ := p.valid
  exact ⟨hasc, hbelow⟩

section
variable {w : Nat} {v : Word w} {S U : Term}

theorem xorbits_eq_false (h : ∀ i ∈ S, v.getLsbD i = false) : xorbits v S = false := by
  induction S with
  | nil => rfl
  | cons i S ih =>
    obtain ⟨hi, hS⟩ := List.forall_mem_cons.mp h
    rw [xorbits_cons, hi, ih hS, Bool.xor_false]

/-- Where one index at most can be set, the XOR is that index's bit. -/
theorem xorbits_eq_getLsbD {t : Nat} (hS : S.Pairwise (· < ·)) (ht : t ∈ S)
    (h : ∀ i ∈ S, i ≠ t → v.getLsbD i = false) : xorbits v S = v.getLsbD t := by
  induction S with
  | nil => simp at ht
  | cons i S ih =>
    obtain ⟨hlt, hS⟩ := List.pairwise_cons.mp hS
    obtain ⟨hi, hrest⟩ := List.forall_mem_cons.mp h
    rw [xorbits_cons]
    rcases List.mem_cons.mp ht with rfl | ht
    · rw [xorbits_eq_false fun j hj => hrest j hj (hlt j hj).ne', Bool.xor_false]
    · rw [hi (hlt t ht).ne, ih hS ht hrest, Bool.false_xor]

/-- The word whose only bit is `j` tells whether a term holds `j`. -/
theorem xorbits_twoPow (hS : IsSeedTerm w S) (j : Nat) : xorbits (BitVec.twoPow w j) S = decide (j ∈ S) := by
  obtain ⟨hasc, hbelow⟩ := hS
  by_cases hj : j ∈ S
  · rw [xorbits_eq_getLsbD hasc hj fun i _ hi => by simp [hi.symm], decide_eq_true hj]
    simp [hbelow j hj]
  · have hne : ∀ i ∈ S, j ≠ i := fun i hi e => hj (e ▸ hi)
    rw [xorbits_eq_false fun i hi => by simp [hne i hi], decide_eq_false hj]

/-- The seeds separate the terms: two terms with the same XOR over every seed are one term. -/
theorem IsSeedTerm.ext (hS : IsSeedTerm w S) (hU : IsSeedTerm w U) (h : ∀ v : Word w, xorbits v S = xorbits v U) :
    S = U := by
  refine hS.1.eq_of_mem_iff hU.1 fun {j} => ?_
  rw [← decide_eq_decide, ← xorbits_twoPow hS, h, xorbits_twoPow hU]

end

/-! The feedback term (R105, R114). -/

section
variable (taps : Term) {cells : Snapshot}

theorem feedbackTerm_concat (t : Nat) (cells : Snapshot) :
    feedbackTerm (taps ++ [t]) cells = symDiff (feedbackTerm taps cells) (cells.getD t []) := by
  simp only [feedbackTerm, List.foldl_append, List.foldl_cons, List.foldl_nil]

theorem feedbackTerm_ascending (cells : Snapshot) : (feedbackTerm taps cells).Pairwise (· < ·) := by
  induction taps using List.reverseRecOn with
  | nil => exact .nil
  | append_singleton taps t ih =>
    rw [feedbackTerm_concat]
    exact symDiff_ascending _ ih

/-- What turns a symmetric difference into an XOR turns the feedback term into a parity over the taps. -/
theorem feedbackTerm_parity (χ : Term → Bool) (hnil : χ [] = false)
    (hsymDiff : ∀ (S : Term) (t : Nat), S.Pairwise (· < ·) →
      χ (symDiff S (cells.getD t [])) = (χ S ^^ χ (cells.getD t []))) :
    χ (feedbackTerm taps cells) = parity taps fun t => χ (cells.getD t []) := by
  induction taps using List.reverseRecOn with
  | nil => exact hnil
  | append_singleton taps t ih =>
    rw [feedbackTerm_concat, hsymDiff _ t (feedbackTerm_ascending taps cells), ih, parity_concat]

theorem xorbits_feedbackTerm {w : Nat} (v : Word w) (cells : Snapshot) :
    xorbits v (feedbackTerm taps cells) = parity taps fun t => xorbits v (cells.getD t []) :=
  feedbackTerm_parity taps (xorbits v) (xorbits_nil v) fun S t _ => xorbits_symDiff v S (cells.getD t [])

/-- A cell a snapshot does not have reads as the empty term. -/
theorem getD_of_forall_cells {P : Term → Prop} (hnil : P []) (h : ∀ S ∈ cells, P S) (t : Nat) : P (cells.getD t []) := by
  rw [List.getD_eq_getElem?_getD]
  cases ht : cells[t]? with
  | none => exact hnil
  | some S => exact h S (List.mem_of_getElem? ht)

theorem decide_mem_feedbackTerm (hcells : ∀ S ∈ cells, S.Pairwise (· < ·)) (j : Nat) :
    decide (j ∈ feedbackTerm taps cells) = parity taps fun t => decide (j ∈ cells.getD t []) := by
  refine feedbackTerm_parity taps (fun S => decide (j ∈ S)) (by simp) fun S t hS => ?_
  have hmem := mem_symDiff (j := j) hS (getD_of_forall_cells .nil hcells t)
  generalize cells.getD t [] = U at hmem ⊢
  by_cases hj : j ∈ U <;> simp [hmem, hj]

theorem feedbackTerm_isSeedTerm {w : Nat} (h : ∀ S ∈ cells, IsSeedTerm w S) : IsSeedTerm w (feedbackTerm taps cells) := by
  refine ⟨feedbackTerm_ascending taps cells, fun j hj => ?_⟩
  have hparity := decide_mem_feedbackTerm taps (fun S hS => (h S hS).1) j
  rw [decide_eq_true hj] at hparity
  obtain ⟨t, -, ht⟩ := exists_of_parity hparity.symm
  obtain ⟨-, hbelow⟩ := getD_of_forall_cells (P := IsSeedTerm w) ⟨.nil, by simp⟩ h t
  exact hbelow j (of_decide_eq_true ht)

end

/-! Snapshots and schedules (R105, R112). -/

section
variable (p : Polynomial)

/-- The term of cycle `k`: entry `k` of every schedule that is long enough (`expand_eq_map`). -/
def termAt (k : Nat) : Term := feedbackTerm p.taps (snapshotAt p k)

theorem expandFrom_snapshotAt (n c : Nat) :
    expandFrom p.taps n (snapshotAt p c) = (List.range n).map fun k => termAt p (c + k) := by
  induction n generalizing c with
  | zero => rfl
  | succ n ih =>
    have htail : expandFrom p.taps (n + 1) (snapshotAt p c) =
        termAt p c :: expandFrom p.taps n (snapshotAt p (c + 1)) := rfl
    rw [htail, ih, List.range_succ_eq_map, List.map_cons, List.map_map]
    simp only [Function.comp_def, Nat.add_zero, Nat.succ_eq_add_one, Nat.add_right_comm c 1, Nat.add_assoc]

theorem expand_eq_map (n : Nat) : expand p n = (List.range n).map (termAt p) := by
  have h := expandFrom_snapshotAt p n 0
  simp only [Nat.zero_add] at h
  exact h

@[simp] theorem expand_length (n : Nat) : (expand p n).length = n := by
  rw [expand_eq_map, List.length_map, List.length_range]

variable {p}

theorem mem_expand {n : Nat} {S : Term} : S ∈ expand p n ↔ ∃ k < n, termAt p k = S := by
  simp only [expand_eq_map, List.mem_map, List.mem_range]

theorem getD_expand {n k : Nat} (h : k < n) : (expand p n).getD k [] = termAt p k := by
  rw [List.getD_eq_getElem _ _ (by simpa using h)]
  simp only [expand_eq_map, List.getElem_map, List.getElem_range]

variable (p)

theorem snapshotAt_isSeedTerm (c : Nat) : ∀ S ∈ snapshotAt p c, IsSeedTerm p.width S := by
  induction c with
  | zero =>
    intro S hS
    obtain ⟨i, hi, rfl⟩ := List.mem_map.mp hS
    exact ⟨List.pairwise_singleton _ i, by simpa using hi⟩
  | succ c ih =>
    intro S hS
    rcases List.mem_cons.mp hS with rfl | hS
    · exact feedbackTerm_isSeedTerm p.taps ih
    · exact ih S (List.mem_of_mem_dropLast hS)

theorem termAt_isSeedTerm (k : Nat) : IsSeedTerm p.width (termAt p k) :=
  feedbackTerm_isSeedTerm p.taps (snapshotAt_isSeedTerm p k)

@[simp] theorem snapshotAt_length (c : Nat) : (snapshotAt p c).length = p.width := by
  obtain ⟨hpos, -⟩ := p.valid
  induction c with
  | zero => simp [snapshotAt, initialSnapshot]
  | succ c ih =>
    rw [snapshotAt, shiftCells, List.length_cons, List.length_dropLast, ih, Nat.sub_add_cancel hpos]

/-! The cells of a snapshot, by cycle and cell. -/

theorem cell_initial {i : Nat} (hi : i < p.width) : (snapshotAt p 0).getD i [] = [i] := by
  simp [snapshotAt, initialSnapshot, hi]

/-- Cell 0 holds the feedback term of the cycle before. -/
theorem cell_zero (c : Nat) : (snapshotAt p (c + 1)).getD 0 [] = termAt p c := rfl

/-- Every other cell holds what its lower neighbour held. -/
theorem cell_succ (c : Nat) {i : Nat} (hi : i + 1 < p.width) :
    (snapshotAt p (c + 1)).getD (i + 1) [] = (snapshotAt p c).getD i [] := by
  have hlast : i < (snapshotAt p c).length - 1 := by rw [snapshotAt_length]; omega
  rw [snapshotAt, shiftCells, List.getD_cons_succ]
  simp only [List.getD_eq_getElem?_getD, List.getElem?_dropLast, if_pos hlast]

/-- A singleton moves up one cell a cycle; the cells below it hold the terms, the latest in cell 0 (R112). -/
theorem cell_eq (c : Nat) {i : Nat} (hi : i < p.width) :
    (snapshotAt p c).getD i [] = if c ≤ i then [i - c] else termAt p (c - 1 - i) := by
  induction c generalizing i with
  | zero => rw [cell_initial p hi, if_pos i.zero_le, Nat.sub_zero]
  | succ c ih =>
    cases i with
    | zero => exact cell_zero p c
    | succ i =>
      have hbelow : c + 1 - 1 - (i + 1) = c - 1 - i := by omega
      rw [cell_succ p c hi, ih (Nat.lt_of_succ_lt hi), hbelow]
      simp only [Nat.add_le_add_iff_right, Nat.add_sub_add_right]

/-- The recurrence of R112. -/
theorem decide_mem_termAt (k j : Nat) :
    decide (j ∈ termAt p k) =
      parity p.taps fun t => if k ≤ t then decide (j = t - k) else decide (j ∈ termAt p (k - 1 - t)) := by
  obtain ⟨-, -, hbelow, -⟩ := p.valid
  rw [termAt, decide_mem_feedbackTerm p.taps fun S hS => (snapshotAt_isSeedTerm p k S hS).1]
  refine parity_congr fun t ht => ?_
  rw [cell_eq p k (hbelow t ht)]
  split <;> simp

/-! The agreement with the engine (R113). -/

variable {p} (v : Word p.width)

theorem xorbits_cell (c : Nat) {i : Nat} (hi : i < p.width) :
    xorbits v ((snapshotAt p c).getD i []) = (stateAfter p.taps v c).getLsbD i := by
  obtain ⟨-, -, hbelow, -⟩ := p.valid
  induction c generalizing i with
  | zero => rw [cell_initial p hi, xorbits_cons, xorbits_nil, Bool.xor_false, stateAfter]
  | succ c ih =>
    cases i with
    | zero =>
      calc xorbits v ((snapshotAt p (c + 1)).getD 0 [])
          = parity p.taps fun t => xorbits v ((snapshotAt p c).getD t []) := xorbits_feedbackTerm p.taps v _
        _ = parity p.taps fun t => (stateAfter p.taps v c).getLsbD t := parity_congr fun t ht => ih (hbelow t ht)
        _ = xorbits (stateAfter p.taps v c) p.taps := parity_getLsbD _ _
        _ = (stateAfter p.taps v (c + 1)).getLsbD 0 := (getLsbD_shift_zero p.taps _ hi).symm
    | succ i => rw [cell_succ p c hi, ih (Nat.lt_of_succ_lt hi), stateAfter, getLsbD_shift_succ p.taps _ hi]

theorem xorbits_termAt (k : Nat) : xorbits v (termAt p k) = (stateAfter p.taps v (k + 1)).getLsbD 0 := by
  obtain ⟨hpos, -⟩ := p.valid
  exact xorbits_cell v (k + 1) hpos

end

/-! No term is empty: the shift is invertible, so some seed has a 1 in bit 0 after `k + 1` STEPs (R93, R109). -/

section
variable (p : Polynomial)

/-- The top tap makes the shift invertible: the other bits only move, and with those at 0 it alone is the feedback bit. -/
theorem eq_zero_of_shift_eq_zero {v : Word p.width} (h : shift p.taps v = 0#p.width) : v = 0#p.width := by
  obtain ⟨hpos, hasc, hbelow, htop⟩ := p.valid
  have hlow : ∀ i, i + 1 < p.width → v.getLsbD i = false := fun i hi => by
    rw [← getLsbD_shift_succ p.taps v hi, h, BitVec.getLsbD_zero]
  have hlast : v.getLsbD (p.width - 1) = false := by
    rw [← xorbits_eq_getLsbD hasc htop fun i hi hne => hlow i (by have := hbelow i hi; omega),
      ← getLsbD_shift_zero p.taps v hpos, h, BitVec.getLsbD_zero]
  refine BitVec.eq_of_getLsbD_eq fun i hi => ?_
  rw [BitVec.getLsbD_zero]
  by_cases he : i = p.width - 1
  · rw [he, hlast]
  · exact hlow i (by omega)

theorem shift_injective : Function.Injective (shift p.taps : Word p.width → Word p.width) := by
  intro a b hab
  have hzero : shift p.taps (a ^^^ b) = 0#p.width := by rw [shift_xor, hab, BitVec.xor_self]
  exact BitVec.xor_eq_zero_iff.mp (eq_zero_of_shift_eq_zero p hzero)

/-- Every word is state `c` of some seed's sequence. -/
theorem exists_stateAfter_eq (c : Nat) (u : Word p.width) : ∃ v, stateAfter p.taps v c = u := by
  simp only [stateAfter_eq_iterate]
  exact Finite.surjective_of_injective ((shift_injective p).iterate c) u

theorem termAt_ne_nil (k : Nat) : termAt p k ≠ [] := by
  obtain ⟨hpos, -⟩ := p.valid
  obtain ⟨v, hv⟩ := exists_stateAfter_eq p (k + 1) 1#p.width
  intro hnil
  have h := xorbits_termAt v k
  simp [hnil, hv, hpos] at h

/-- EXPAND always goes on, with the schedule: the fault of U11 cannot happen. -/
theorem exec_expand (n : Nat) (s : State) : exec (.expand p n) s = .next (s.setSchedule (expand p n)) := by
  have hne : [] ∉ expand p n := fun h => by
    obtain ⟨k, -, hk⟩ := mem_expand.mp h
    exact termAt_ne_nil p k hk
  simp only [exec, execExpand, if_neg hne]

end

/-! The matrix form (R111). -/

section
variable (p : Polynomial)

/-- An entry of the first row of a product with the step matrix: the parity of the tapped rows whose entry is 1. -/
theorem sum_stepMatrix_row_zero (f : Nat → Bool) {i : Fin p.width} (hi : i.val = 0) :
    ∑ k : Fin p.width, p.stepMatrix i k * (if f k then 1 else 0) = if parity p.taps f then 1 else 0 := by
  obtain ⟨-, hasc, hbelow, -⟩ := p.valid
  have hnodup : (p.taps.filter f).Nodup := (hasc.imp Nat.ne_of_lt).filter _
  have hentry (k : Fin p.width) :
      p.stepMatrix i k * (if f k then 1 else 0) = if k.val ∈ p.taps ∧ f k then 1 else 0 := by
    rw [Polynomial.stepMatrix, if_pos hi, ite_zero_mul_ite_zero, one_mul]
  have htapped : (Finset.range p.width).filter (fun k => k ∈ p.taps ∧ f k) = (p.taps.filter f).toFinset := by
    ext k
    simpa using fun hk _ => hbelow k hk
  calc ∑ k : Fin p.width, p.stepMatrix i k * (if f k then 1 else 0)
      = ∑ k ∈ Finset.range p.width, if k ∈ p.taps ∧ f k then (1 : ZMod 2) else 0 := by
        rw [Finset.sum_congr rfl fun k _ => hentry k, ← Fin.sum_univ_eq_sum_range]
    _ = ((p.taps.filter f).length : ZMod 2) := by
        rw [Finset.sum_boole, htapped, List.toFinset_card_of_nodup hnodup]
    _ = if parity p.taps f then 1 else 0 := by
        rw [← ZMod.natCast_mod, parity]
        rcases Nat.mod_two_eq_zero_or_one (p.taps.filter f).length with h | h <;> simp [h]

/-- An entry of any other row of a product with the step matrix: the column's entry one row up. -/
theorem sum_stepMatrix_row_succ (x : Fin p.width → ZMod 2) {i : Nat} (hi : i + 1 < p.width) :
    ∑ k, p.stepMatrix ⟨i + 1, hi⟩ k * x k = x ⟨i, Nat.lt_of_succ_lt hi⟩ := by
  rw [Finset.sum_eq_single ⟨i, Nat.lt_of_succ_lt hi⟩]
  · simp [Polynomial.stepMatrix]
  · intro k _ hk
    have hne : k.val ≠ i := fun e => hk (Fin.ext e)
    simp [Polynomial.stepMatrix, hne]
  · simp

/-- Entry `(i, j)` of `A^c` says whether cell `i` at cycle `c` holds `j`. -/
theorem stepMatrix_pow_apply (c : Nat) (i j : Fin p.width) :
    (p.stepMatrix ^ c) i j = if decide (j.val ∈ (snapshotAt p c).getD i.val []) then 1 else 0 := by
  induction c generalizing i with
  | zero =>
    rw [pow_zero, Matrix.one_apply, cell_initial p i.isLt]
    simp [Fin.ext_iff, eq_comm]
  | succ c ih =>
    rw [pow_succ', Matrix.mul_apply]
    obtain ⟨i, hi⟩ := i
    cases i with
    | zero =>
      have hasc : ∀ S ∈ snapshotAt p c, S.Pairwise (· < ·) := fun S hS => (snapshotAt_isSeedTerm p c S hS).1
      simp only [ih]
      rw [sum_stepMatrix_row_zero p (fun k => decide (j.val ∈ (snapshotAt p c).getD k [])) rfl, cell_zero, termAt,
        decide_mem_feedbackTerm p.taps hasc]
    | succ i => rw [sum_stepMatrix_row_succ p (fun k => (p.stepMatrix ^ c) k j) hi, ih, cell_succ p c hi]

end

/-! Periodicity (R116). -/

/-- If `q` STEPs bring back every seed, they do not change the term: on every seed both terms XOR to the same bit. -/
theorem termAt_add_period {p : Polynomial} {q : Nat} (hq : ∀ v : Word p.width, stateAfter p.taps v q = v) (k : Nat) :
    termAt p (k + q) = termAt p k := by
  refine (termAt_isSeedTerm p (k + q)).ext (termAt_isSeedTerm p k) fun v => ?_
  have hstate : stateAfter p.taps v (k + q + 1) = stateAfter p.taps v (k + 1) := by
    have hperiod := hq v
    rw [stateAfter_eq_iterate] at hperiod
    rw [stateAfter_eq_iterate, stateAfter_eq_iterate, Nat.add_right_comm, Function.iterate_add_apply, hperiod]
  rw [xorbits_termAt, xorbits_termAt, hstate]

/-- If the snapshot comes back to the initial one after `q` cycles, `q` STEPs bring back every seed. -/
theorem stateAfter_eq_self {p : Polynomial} {q : Nat} (h : snapshotAt p q = snapshotAt p 0) (v : Word p.width) :
    stateAfter p.taps v q = v := by
  refine BitVec.eq_of_getLsbD_eq fun i hi => ?_
  rw [← xorbits_cell v q hi, h, xorbits_cell v 0 hi, stateAfter]

/-- `0b110110`: the snapshot of cycle 63 is the initial one. -/
theorem snapshotAt_period_0b110110 :
    snapshotAt ⟨6, [1, 2, 4, 5], rfl⟩ 63 = snapshotAt ⟨6, [1, 2, 4, 5], rfl⟩ 0 := by
  decide

/-- Settles O22: EXPAND goes on because no term is empty, and the terms obey the recurrence. -/
theorem expandResult : Obligations.ExpandResult := by
  intro p n s
  refine ⟨expand p n, exec_expand p n s, expand_length p n, fun S hS => ?_, fun k hk j => ?_⟩
  · obtain ⟨k, -, rfl⟩ := mem_expand.mp hS
    exact termAt_isSeedTerm p k
  · rw [getD_expand hk, decide_mem_termAt]
    refine parity_congr fun t _ => ?_
    rw [getD_expand (by omega : k - 1 - t < n)]

/-- Settles O23: a term XORs to 1 on some seed. -/
theorem termsAreNonEmpty : Obligations.TermsAreNonEmpty := by
  intro p n S hS
  obtain ⟨k, -, rfl⟩ := mem_expand.mp hS
  exact termAt_ne_nil p k

/-- Settles O24: on every seed the term of cycle 0 and the taps both XOR to the first feedback bit. -/
theorem cycleZeroIsTheTaps : Obligations.CycleZeroIsTheTaps := by
  intro p n
  obtain ⟨hpos, -⟩ := p.valid
  have hterm : termAt p 0 = p.taps := (termAt_isSeedTerm p 0).ext (taps_isSeedTerm p) fun v => by
    rw [xorbits_termAt]
    exact getLsbD_shift_zero p.taps v hpos
  rw [expand_eq_map, List.range_succ_eq_map, List.map_cons, List.getElem?_cons_zero, hterm]

/-- Settles O25: the closed form of the cells, with the terms read from a schedule that reaches them. -/
theorem snapshotClosedForm : Obligations.SnapshotClosedForm := by
  intro p n c i hc hi
  have hlen : i < (snapshotAt p c).length := by rwa [snapshotAt_length]
  rw [List.getElem?_eq_getElem hlen, ← List.getD_eq_getElem _ [] hlen, cell_eq p c hi]
  split
  · rfl
  · rw [getD_expand (by omega)]

/-- Settles O26: membership turns a symmetric difference of ascending terms into an XOR. -/
theorem repeatedIndexCancels : Obligations.RepeatedIndexCancels :=
  fun taps _ j hcells => decide_mem_feedbackTerm taps hcells j

/-- Settles O27: the entries of the powers are the memberships in the cells, and a term is a cell 0. -/
theorem scheduleIsMatrixPower : Obligations.ScheduleIsMatrixPower := by
  intro p
  have hcell (c : Nat) (i j : Fin p.width) :
      j.val ∈ (snapshotAt p c).getD i.val [] ↔ (p.stepMatrix ^ c) i j = 1 := by
    rw [stepMatrix_pow_apply]
    simp [-List.getD_eq_getElem?_getD]
  refine ⟨hcell, fun n k i j hk hi => ?_⟩
  rw [getD_expand hk, ← cell_zero, ← hi]
  exact hcell (k + 1) i j

/-- Settles O28: cell by cell along the cycles, and a term is a cell 0. -/
theorem expanderAgreesWithEngine : Obligations.ExpanderAgreesWithEngine := by
  intro p v
  refine ⟨fun c i hi => xorbits_cell v c hi, fun n k hk => ?_⟩
  rw [getD_expand hk, xorbits_termAt]

/-- Settles O29: a term depends on its cycle only, not on the schedule's length. -/
theorem schedulesArePrefixes : Obligations.SchedulesArePrefixes := by
  intro p n n' h
  rw [expand_eq_map, expand_eq_map, ← List.map_take, List.take_range, Nat.min_eq_left h]

/-- Settles O30: the seeds tell the terms apart, and the expander, run on `0b110110`, comes back after 63 cycles. -/
theorem schedulesRepeat : Obligations.SchedulesRepeat := by
  refine ⟨fun p q hq n k hk => ?_, fun v => stateAfter_eq_self snapshotAt_period_0b110110 v⟩
  rw [getD_expand hk, getD_expand (by omega), termAt_add_period hq]

end Sys2Proof.Machine
end

section
/-! PROOFS. The parallel generator (`43_parallel_generator.md`): the XOR trees over the seed, the outputs as the engine's feedback
bits, EVAL, and a new seed on the module's wires. -/

namespace Sys2Proof.Machine

/-! The output word of a bank of XOR trees (R126, R129). -/

section
variable {w : Nat} (trees : Schedule)

theorem getLsbD_evalTrees_eq_parity (v : Word w) {n k : Nat} (hk : k < n) :
    (evalTrees trees v n).getLsbD k = parity (trees.getD k []) fun i => v.getLsbD i := by
  rw [getLsbD_evalTrees, decide_eq_true hk, Bool.true_and, parity_getLsbD]

theorem evalTrees_xor (a b : Word w) (n : Nat) :
    evalTrees trees (a ^^^ b) n = evalTrees trees a n ^^^ evalTrees trees b n := by
  refine BitVec.eq_of_getLsbD_eq fun k hk => ?_
  simp only [BitVec.getLsbD_xor, getLsbD_evalTrees, xorbits_xor, decide_eq_true hk, Bool.true_and]

@[simp] theorem evalTrees_zero (n : Nat) : evalTrees trees (0#w) n = 0#n := by
  refine BitVec.eq_of_getLsbD_eq fun k _ => ?_
  rw [getLsbD_evalTrees, xorbits_zero, Bool.and_false, BitVec.getLsbD_zero]

end

/-! The expander's trees give the engine's feedback bits (R113, R127). -/

/-- Output bit `k` is `y_k`, the bit the engine shifts in at STEP `k + 1`. -/
theorem getLsbD_evalTrees_expand {p : Polynomial} (v : Word p.width) {n k : Nat} (hk : k < n) :
    (evalTrees (expand p n) v n).getLsbD k = feedbackAt p.taps v k := by
  obtain ⟨hpos, -⟩ := p.valid
  calc (evalTrees (expand p n) v n).getLsbD k
      = xorbits v (termAt p k) := by rw [getLsbD_evalTrees, decide_eq_true hk, Bool.true_and, getD_expand hk]
    _ = (stateAfter p.taps v (k + 1)).getLsbD 0 := xorbits_termAt v k
    _ = feedbackAt p.taps v k := getLsbD_shift_zero p.taps _ hpos

/-- `i` STEPs after it is shifted in, `y_k` stands in cell `i`. -/
theorem getLsbD_stateAfter_shiftedIn {w : Nat} (taps : Term) (v : Word w) (k : Nat) {i : Nat} (hi : i < w) :
    (stateAfter taps v (k + 1 + i)).getLsbD i = feedbackAt taps v k := by
  have hcycle : k + 1 + i - 1 - i = k := by omega
  rw [getLsbD_stateAfter taps v _ hi, if_neg (by omega), hcycle]

/-- The engine of `p` runs a LOAD_SEED of `v` and `k + 1 + i` STEPs, and then holds `y_k` in cell `i`. -/
theorem loadThenSteps_feedbackAt {p : Polynomial} {s : State} {q : SeqModule} (hc : s.circuit = some (.sequential q))
    (hq : q.poly = p) (v x : Word p.width) (k : Nat) {i : Nat} (hi : i < p.width) :
    ∃ u r, loadThenSteps p.width v x (k + 1 + i) s = .next u ∧ u.circuit = some (.sequential r) ∧
      r.reg.map (fun a => a.getLsbD i) = some (feedbackAt p.taps v k) := by
  subst hq
  exact ⟨_, _, loadThenSteps_eq hc v x (k + 1 + i), rfl,
    congrArg some (getLsbD_stateAfter_shiftedIn q.poly.taps v k hi)⟩

/-! The operations of a state with a parallel module. -/

section
variable {s : State} {m : ParModule}

theorem exec_eval (h : s.circuit = some (.parallel m)) : exec .eval s = .next (s.setParallel m.settle) := by
  simp only [exec, execEval, h]

/-- A new seed on the module's wires takes the event, and the outputs settle in the same step (R126, R178). -/
theorem step_of_seed {rest : List Input} {x : Word m.poly.width} (hp : s.gen.phase = .idle)
    (hc : s.circuit = some (.parallel m)) (hi : s.inputs = .seed m.poly.width x :: rest) :
    step s = .next ({ s with inputs := rest }.setParallel (ParModule.settle { m with seed := x })) := by
  have hfetch : fetch s = fetchNets ({ s with inputs := rest }.setParallel { m with seed := x }) := by
    simp only [fetch, hp, fetchInput, hi, fetchSeed, hc, portValue_self]
  rw [step_eq_outcome, hfetch, nets_parallel]

end

/-- Settles O32: both machines give the feedback bit `y_k`, EVAL in output bit `k` and the engine in cell `i`. -/
theorem evalAgreesWithEngine : Obligations.EvalAgreesWithEngine := by
  intro s m hc hm
  refine ⟨m.outputNet, exec_eval hc, fun s' q x hc' hq k i hk hi => ?_⟩
  rw [ParModule.outputNet, hm.trees, getLsbD_evalTrees_expand m.seed hk]
  exact loadThenSteps_feedbackAt hc' hq m.seed x k hi

/-- Settles O33: the outputs are the feedback bits, which obey the recurrence (R94), and it reads only earlier ones. -/
theorem outputRecurrence : Obligations.OutputRecurrence := by
  intro p n v k hk
  rw [getLsbD_evalTrees_expand v hk, feedbackAt_eq_parity]
  refine parity_congr fun t _ => ?_
  rw [getLsbD_evalTrees_expand v (by omega : k - 1 - t < n)]

/-- Settles O34: each output bit is an XOR over a fixed set of seed bits. -/
theorem evalIsLinear : Obligations.EvalIsLinear :=
  fun _ n trees a b => ⟨evalTrees_xor trees a b n, evalTrees_zero trees n⟩

/-- Settles O35: output bit `k` is the feedback bit `y_k`, whatever the number of outputs. -/
theorem narrowerModuleAgrees : Obligations.NarrowerModuleAgrees := by
  intro p n n' v hn
  refine BitVec.eq_of_getLsbD_eq fun k hk => ?_
  rw [BitVec.getLsbD_setWidth, decide_eq_true hk, Bool.true_and, getLsbD_evalTrees_expand v hk,
    getLsbD_evalTrees_expand v (hk.trans_le hn)]

/-- Settles O31: EVAL settles the outputs. -/
theorem evalResult : Obligations.EvalResult :=
  fun _ m hc => ⟨m.outputNet, exec_eval hc, fun _ hk => getLsbD_evalTrees_eq_parity m.trees m.seed hk⟩

/-- Settles O40: the step settles the outputs over the new seed. -/
theorem outputsFollowTheSeed : Obligations.OutputsFollowTheSeed :=
  fun _ m _ x hp hc hi =>
    ⟨evalTrees m.trees x m.n, step_of_seed hp hc hi, fun _ hk => getLsbD_evalTrees_eq_parity m.trees x hk⟩

end Sys2Proof.Machine
end

section
/-! PROOFS. Errors (`60_exceptions.md`): the `out_width` check. -/

namespace Sys2Proof.Machine

/-! The `out_width` check (R153). -/

section
variable {s : State}

/-- A step at the second place of a generation call is the check (R64). -/
theorem step_of_width (hp : s.gen.phase = .width) : step s = .next (checkWidth s) := by
  rw [step_eq_outcome]
  simp only [fetch, hp, Fetched.outcome]

theorem checkWidth_of_invalid (hm : s.gen.call.mode = .parallel) (hn : s.gen.call.outWidth < 1) :
    checkWidth s = s.failWith (.invalidOutputWidth s.gen.call.outWidth) := by
  simp only [checkWidth, hm, if_pos hn]

/-- Sequential mode passes whatever the width. -/
theorem checkWidth_of_valid (h : s.gen.call.mode = .sequential ∨ 1 ≤ s.gen.call.outWidth) :
    checkWidth s = s.enterBuild := by
  cases hm : s.gen.call.mode with
  | sequential => simp only [checkWidth, hm]
  | parallel =>
    have hn : ¬ s.gen.call.outWidth < 1 := by simpa [hm] using h
    simp only [checkWidth, hm, if_neg hn]

end

/-- Settles O42: the step is the check, which ends the call on an invalid width and otherwise changes the phase only. -/
theorem outWidthCheck : Obligations.OutWidthCheck := by
  intro s hp
  rw [step_of_width hp]
  refine ⟨fun hm hn => ?_, fun h => ?_⟩
  · rw [checkWidth_of_invalid hm hn]
    exact ⟨_, rfl, rfl, rfl, rfl, rfl, rfl⟩
  · rw [checkWidth_of_valid h, State.enterBuild]

end Sys2Proof.Machine
end

section
/-! PROOFS. Encodings (`30_encoding.md`): which literals and records decode to which operations, and that `encode` and
`decode` are inverse to each other. -/

namespace Sys2Proof

/-! Literals (R50, R74). -/

section
variable {c : Char} {lit : Literal}

theorem hasPrefix_iff : hasPrefix c lit = true ↔ ∃ ds, lit = '0' :: c :: ds := by
  unfold hasPrefix
  split
  next d ds => simp
  next h => simpa using fun ds e => h c ds e

theorem beginsWith_iff : beginsWith c lit = true ↔ ∃ ds, lit = '0' :: c :: ds := by
  rcases lit with _ | ⟨a, _ | ⟨b, ds⟩⟩ <;> simp [beginsWith]

/-- The literals with a base's prefix are the well-formed operands of that base's parse. -/
theorem hasPrefix_eq_beginsWith (c : Char) (lit : Literal) : hasPrefix c lit = beginsWith c lit :=
  Bool.eq_iff_iff.mpr (hasPrefix_iff.trans beginsWith_iff.symm)

theorem hasPrefix_eq_false (h : ∀ ds, lit ≠ '0' :: c :: ds) : hasPrefix c lit = false :=
  Bool.eq_false_iff.mpr fun hp => by
    obtain ⟨ds, hds⟩ := hasPrefix_iff.mp hp
    exact h ds hds

theorem decodeLiteral_bin (h : beginsWith 'b' lit = true) : decodeLiteral lit = .ok (.parseBin lit) :=
  if_pos ((hasPrefix_eq_beginsWith 'b' lit).trans h)

/-- A literal with the hexadecimal prefix does not have the binary one, which is tried first. -/
theorem decodeLiteral_hex (h : beginsWith 'x' lit = true) : decodeLiteral lit = .ok (.parseHex lit) := by
  obtain ⟨ds, rfl⟩ := beginsWith_iff.mp h
  rfl

theorem decodeLiteral_noPrefix (hb : hasPrefix 'b' lit = false) (hx : hasPrefix 'x' lit = false) :
    decodeLiteral lit = .error (.noPrefix lit) := by
  simp [decodeLiteral, hb, hx]

/-- The operation of a literal carries the whole literal (log 6). -/
theorem encode_of_decodeLiteral {i : Instr} (h : decodeLiteral lit = .ok i) : encode i = .literal lit := by
  unfold decodeLiteral at h
  split at h
  · cases h; rfl
  · split at h
    · cases h; rfl
    · cases h

end

/-! Records (R61, R62). -/

section
variable {w : Nat}

/-- A record is its `rst` bit and its seed bits. -/
theorem recordOf_getLsbD_setWidth (bits : Word (w + 1)) : recordOf (bits.getLsbD w) (bits.setWidth w) = bits := by
  have hmsb : bits.msb = bits.getLsbD w := BitVec.msb_eq_getLsbD_last bits
  rw [← hmsb]
  exact BitVec.cons_msb_setWidth bits

theorem decodeRecord_recordOf (hw : 0 < w) (rst : Bool) (seed : Word w) :
    decodeRecord w (recordOf rst seed) = .ok (if rst then .loadSeed w seed else .step w seed) := by
  rw [decodeRecord, if_neg hw.ne', recordOf, BitVec.getLsbD_cons, if_pos rfl, BitVec.setWidth_cons]
  cases rst <;> rfl

theorem encode_of_decodeRecord {bits : Word (w + 1)} {i : Instr} (h : decodeRecord w bits = .ok i) :
    encode i = .record w bits := by
  rcases w.eq_zero_or_pos with rfl | hw
  · cases h
  · rw [← recordOf_getLsbD_setWidth bits] at h ⊢
    rw [decodeRecord_recordOf hw] at h
    cases h
    cases bits.getLsbD w <;> rfl

end

/-! Equal values (R59). -/

/-- A value has one Polynomial: its length in bits fixes the width and its set bits fix the taps. -/
theorem Polynomial.IsOf.eq {p q : Polynomial} {v : Nat} (hp : p.IsOf v) (hq : q.IsOf v) : p = q := by
  have hle : ∀ {p q : Polynomial}, p.IsOf v → q.IsOf v → p.width ≤ q.width := fun {p q} hp hq => by
    have hlt : 2 ^ (p.width - 1) < 2 ^ q.width := hp.low.trans_lt hq.high
    have := (Nat.pow_lt_pow_iff_right (by decide : 1 < 2)).mp hlt
    omega
  have hwidth : p.width = q.width := (hle hp hq).antisymm (hle hq hp)
  have htaps : p.taps = q.taps := hp.order.eq_of_mem_iff hq.order fun {i} => (hp.taps i).trans (hq.taps i).symm
  cases p; cases q
  cases hwidth; cases htaps
  rfl

/-- Settles O2: the codes of the parses keep the prefix, those of LOAD_SEED and STEP their `rst` bit, and every other operation
has a code without bits. -/
theorem decodeOfEncode : Obligations.DecodeOfEncode := by
  intro i hwf
  cases i with
  | parseBin lit => exact decodeLiteral_bin hwf
  | parseHex lit => exact decodeLiteral_hex hwf
  | loadSeed w seed => exact decodeRecord_recordOf (of_decide_eq_true hwf) true seed
  | step w seed => exact decodeRecord_recordOf (of_decide_eq_true hwf) false seed
  | feedback => rfl
  | expand p n => rfl
  | eval => rfl

/-- Settles O3: the operands of an operation hold every part of the code it was decoded from. -/
theorem encodeOfDecode : Obligations.EncodeOfDecode := by
  intro c i h
  cases c with
  | literal lit => exact encode_of_decodeLiteral h
  | record w bits => exact encode_of_decodeRecord h
  | elaborate mode p n => cases mode <;> cases h; rfl
  | always mode => cases mode <;> cases h <;> rfl

/-- Settles O4: the record's high bit is all the decoder looks at. -/
theorem recordSelectsByReset : Obligations.RecordSelectsByReset :=
  fun _ seed hw => ⟨decodeRecord_recordOf hw true seed, decodeRecord_recordOf hw false seed⟩

/-- Settles O1: the decoder evaluated on the codes the spec writes out; the records are `{1, 101011}` and `{0, 111111}`. -/
theorem specCodesDecode : Obligations.SpecCodesDecode :=
  ⟨decodeLiteral_bin rfl, decodeLiteral_hex rfl, decodeRecord_recordOf (by decide) true 0b101011#6,
    decodeRecord_recordOf (by decide) false 0b111111#6, rfl, rfl, rfl⟩

end Sys2Proof

namespace Sys2Proof.Machine

/-! Literals that end a call as malformed (R56, R74). -/

/-- A step on a malformed literal ends the call, with the error recorded and everything else of the call gone (R151, R154). -/
theorem step_of_malformed {s : State} (hp : s.gen.phase = .parse)
    (h : parseLiteral s.gen.call.genPoly = .error (.malformedPolynomial s.gen.call.genPoly)) :
    ∃ t, step s = .next t ∧ t.gen.error = some (.malformedPolynomial s.gen.call.genPoly) ∧ t.gen.phase = .idle ∧
      t.circuit = none ∧ t.text = none ∧ t.inputs = s.inputs := by
  refine ⟨_, ?_, State.failWith_error s _, rfl, rfl, rfl, rfl⟩
  rw [step_of_parse hp, h, finishParse]

/-- Without a digit, or with a character that is none, a string after a base prefix is no digit string. -/
theorem ne_literalText_of_bad_digits {c : Char} {cs : List Char} {table : List (Char × Nat)}
    (h : cs = [] ∨ ∃ d ∈ cs, d ∉ table.map Prod.fst) (ds : List (Char × Nat)) (hne : ds ≠ [])
    (hds : ∀ d ∈ ds, d ∈ table) : '0' :: c :: cs ≠ literalText c ds := by
  intro he
  obtain rfl : cs = ds.map Prod.fst := by simpa [literalText] using he
  rcases h with h | ⟨d, hd, hbad⟩
  · exact hne (List.map_eq_nil_iff.mp h)
  · obtain ⟨e, he, rfl⟩ := List.mem_map.mp hd
    exact hbad (List.mem_map_of_mem (hds e he))

theorem parseLiteral_bad_bin {cs : List Char} (h : cs = [] ∨ ∃ d ∈ cs, d ∉ binaryDigits.map Prod.fst) :
    parseLiteral ('0' :: 'b' :: cs) = .error (.malformedPolynomial ('0' :: 'b' :: cs)) :=
  congrArg (fromLiteral _) (literalValue_eq_none binDigit_readsTable (ne_literalText_of_bad_digits h))

theorem parseLiteral_bad_hex {cs : List Char} (h : cs = [] ∨ ∃ d ∈ cs, d ∉ hexDigits.map Prod.fst) :
    parseLiteral ('0' :: 'x' :: cs) = .error (.malformedPolynomial ('0' :: 'x' :: cs)) :=
  congrArg (fromLiteral _) (literalValue_eq_none hexDigit_readsTable (ne_literalText_of_bad_digits h))

/-- Settles O7: the prefix chooses the base, and the rest is no digit string of that base. -/
theorem badDigitsEndTheCall : Obligations.BadDigitsEndTheCall := by
  intro s cs hp h
  refine step_of_malformed hp ?_
  rcases h with ⟨hlit, hbad⟩ | ⟨hlit, hbad⟩
  · rw [hlit, parseLiteral_bad_bin hbad]
  · rw [hlit, parseLiteral_bad_hex hbad]

/-- Settles O8: with neither prefix the decoder and the parse both reject the literal. -/
theorem unprefixedLiteralEndsTheCall : Obligations.UnprefixedLiteralEndsTheCall := by
  intro s hp h
  have hb : hasPrefix 'b' s.gen.call.genPoly = false := hasPrefix_eq_false fun ds => (h ds).1
  have hx : hasPrefix 'x' s.gen.call.genPoly = false := hasPrefix_eq_false fun ds => (h ds).2
  exact ⟨decodeLiteral_noPrefix hb hx, step_of_malformed hp (by simp [parseLiteral, hb, hx])⟩

/-- Settles O10: each of the three parses gives the Polynomial of the one value. -/
theorem equivalentLiterals : Obligations.EquivalentLiterals := by
  intro ds es fs s hds hes hfs hd he hf hpos hde hdf
  obtain ⟨p, hp, hexec⟩ := execParse_of_pos (c := 'b') binDigit_readsTable hds hd s hpos
  obtain ⟨q, hq, hexec'⟩ := execParse_of_pos (c := 'x') hexDigit_readsTable hes he s (hde ▸ hpos)
  obtain ⟨r, hr, hexec''⟩ := execParse_of_pos (c := 'b') binDigit_readsTable hfs hf s (hdf ▸ hpos)
  obtain rfl : p = q := hp.eq (hde ▸ hq)
  obtain rfl : p = r := hp.eq (hdf ▸ hr)
  exact ⟨s.setParsed p, hexec, hexec', hexec''⟩

end Sys2Proof.Machine
end

section
/-! PROOFS. The sequential engine, continued: records that have no effect or no module, the bijection of R93, and the seed that
comes back. -/

namespace Sys2Proof.Machine

/-! Operations without their module, and records of another width (R154, log 7, log 12). -/

section
variable {s : State} {m : SeqModule} {w : Nat}

theorem withSequential_of_none (h : ∀ m, s.circuit ≠ some (.sequential m))
    (f : SeqModule → Host.Outcome State Fault Refusal) :
    withSequential s f = .refused .noSequentialModule := by
  unfold withSequential
  split
  next m hm => exact absurd hm (h m)
  next => rfl

theorem exec_eval_of_none (h : ∀ m, s.circuit ≠ some (.parallel m)) : exec .eval s = .refused .noParallelModule := by
  change execEval s = _
  unfold execEval
  split
  next m hm => exact absurd hm (h m)
  next => rfl

theorem exec_loadSeed_of_none (h : ∀ m, s.circuit ≠ some (.sequential m)) (x : Word w) :
    exec (.loadSeed w x) s = .refused .noSequentialModule :=
  withSequential_of_none h _

theorem exec_step_of_none (h : ∀ m, s.circuit ≠ some (.sequential m)) (x : Word w) :
    exec (.step w x) s = .refused .noSequentialModule :=
  withSequential_of_none h _

theorem exec_loadSeed_of_ne (h : s.circuit = some (.sequential m)) (hw : w ≠ m.poly.width) (x : Word w) :
    exec (.loadSeed w x) s = .refused .portWidth := by
  simp only [exec, execLoadSeed, withSequential_of h, portValue_ne x hw]

theorem exec_step_of_ne (h : s.circuit = some (.sequential m)) (hw : w ≠ m.poly.width) (x : Word w) :
    exec (.step w x) s = .refused .portWidth := by
  simp only [exec, execStep, withSequential_of h, portValue_ne x hw]

end

/-- Settles O53: the sequential operations need a sequential module, EVAL a parallel one. -/
theorem noModuleNoOperation : Obligations.NoModuleNoOperation :=
  fun _ => ⟨fun h => ⟨withSequential_of_none h _, fun _ => exec_loadSeed_of_none h, fun _ => exec_step_of_none h⟩,
    exec_eval_of_none⟩

/-- Settles O54: the seed port takes a value of its own width only. -/
theorem foreignRecordIsRefused : Obligations.ForeignRecordIsRefused :=
  fun _ _ _ x hc hw => ⟨exec_loadSeed_of_ne hc hw x, exec_step_of_ne hc hw x⟩

/-- Settles O14: without a sequential module, for a record of another width and for one of the module's own, the answer does not
mention the seed bits. -/
theorem stepIgnoresSeed : Obligations.StepIgnoresSeed := by
  intro w a b s
  by_cases h : ∃ m, s.circuit = some (.sequential m)
  · obtain ⟨m, hc⟩ := h
    by_cases hw : w = m.poly.width
    · subst hw
      rw [exec_step hc, exec_step hc]
    · rw [exec_step_of_ne hc hw, exec_step_of_ne hc hw]
  · have hnone := not_exists.mp h
    rw [exec_step_of_none hnone, exec_step_of_none hnone]

/-- Settles O15: a LOAD_SEED writes every field that an earlier one wrote. -/
theorem lastLoadWins : Obligations.LastLoadWins := by
  intro s m a b hc
  refine ⟨s.setSequential (m.load a), exec_loadSeed hc a, ?_⟩
  have hagain : exec (.loadSeed m.poly.width b) (s.setSequential (m.load a)) =
      .next ((s.setSequential (m.load a)).setSequential ((m.load a).load b)) :=
    exec_loadSeed (m := m.load a) rfl b
  rw [hagain, exec_loadSeed hc]
  rfl

/-- Settles O16: `k` STEPs after the seed the net is at the feedback bit of state `k`. -/
theorem loadThenStepsResult : Obligations.LoadThenStepsResult :=
  fun k _ _ v x hc => loadThenSteps_eq hc v x k

/-! The bijection (R93). -/

/-- An index taken out of a set takes its bit out of the XOR. -/
theorem xorbits_erase {w : Nat} (v : Word w) {S : Term} {t : Nat} (ht : t ∈ S) :
    xorbits v S = (v.getLsbD t ^^ xorbits v (S.erase t)) := by
  induction S with
  | nil => simp at ht
  | cons i S ih =>
    by_cases hi : i = t
    · subst hi
      rw [List.erase_cons_head, xorbits_cons]
    · have htail : t ∈ S := (List.mem_cons.mp ht).resolve_left (Ne.symm hi)
      rw [List.erase_cons_tail (by simpa using hi), xorbits_cons, xorbits_cons, ih htail, Bool.xor_left_comm]

/-- Settles O19: an injection of a finite set is a bijection; the top bit is what the vacated cell's bit leaves of the XOR. -/
theorem stepIsBijective : Obligations.StepIsBijective := by
  intro p
  obtain ⟨hpos, -, -, htop⟩ := p.valid
  refine ⟨Finite.injective_iff_bijective.mp (shift_injective p), fun v => ⟨fun i hi hlt => ?_, ?_, fun hv hzero => ?_⟩⟩
  · have hmove := getLsbD_shift_succ p.taps v (i := i - 1) (by omega)
    rwa [Nat.sub_add_cancel hi, eq_comm] at hmove
  · rw [getLsbD_shift_zero p.taps v hpos, xorbits_erase v htop, Bool.xor_assoc, Bool.xor_self, Bool.xor_false]
  · exact hv (eq_zero_of_shift_eq_zero p hzero)

/-! The period of a seed (R93). -/

section
variable {p : Polynomial} {v : Word p.width}

theorem stateAfter_ne_zero (hv : v ≠ 0#p.width) (k : Nat) : stateAfter p.taps v k ≠ 0#p.width := by
  induction k with
  | zero => exact hv
  | succ k ih => exact fun h => ih (eq_zero_of_shift_eq_zero p h)

/-- The states of one period are distinct non-zero words, of which there are `2^W - 1`. -/
theorem minimalPeriod_shift_le (hv : v ≠ 0#p.width) : (shift p.taps).minimalPeriod v ≤ 2 ^ p.width - 1 := by
  have hmaps : ∀ k ∈ Finset.range ((shift p.taps).minimalPeriod v),
      (stateAfter p.taps v k).toNat ∈ Finset.Ico 1 (2 ^ p.width) := fun k _ => by
    have hne : (stateAfter p.taps v k).toNat ≠ 0 := fun h =>
      stateAfter_ne_zero hv k (BitVec.eq_of_toNat_eq (by simpa using h))
    exact Finset.mem_Ico.mpr ⟨Nat.one_le_iff_ne_zero.mpr hne, BitVec.isLt _⟩
  have hinj : Set.InjOn (fun k => (stateAfter p.taps v k).toNat) (Finset.range ((shift p.taps).minimalPeriod v)) :=
    fun j hj k hk h => by
      have hstate : stateAfter p.taps v j = stateAfter p.taps v k := BitVec.eq_of_toNat_eq h
      rw [stateAfter_eq_iterate, stateAfter_eq_iterate] at hstate
      exact Function.iterate_injOn_Iio_minimalPeriod (by simpa using hj) (by simpa using hk) hstate
  simpa using Finset.card_le_card_of_injOn _ hmaps hinj

/-- A non-zero seed comes back: the shift, a permutation of a finite set, moves it along a cycle. -/
theorem exists_stateAfter_eq_self (hv : v ≠ 0#p.width) :
    ∃ k, 1 ≤ k ∧ k ≤ 2 ^ p.width - 1 ∧ stateAfter p.taps v k = v := by
  have hperiodic : v ∈ Function.periodicPts (shift p.taps) := (shift_injective p).mem_periodicPts v
  refine ⟨_, Function.minimalPeriod_pos_of_mem_periodicPts hperiodic, minimalPeriod_shift_le hv, ?_⟩
  rw [stateAfter_eq_iterate]
  exact Function.isPeriodicPt_minimalPeriod (shift p.taps) v

end

/-- Settles O20: `k` STEPs leave state `k` of the seed's sequence, and some state of it is the seed again. -/
theorem seedComesBack : Obligations.SeedComesBack := by
  intro s m v x hc hv
  obtain ⟨k, hk, hbound, hback⟩ := exists_stateAfter_eq_self hv
  refine ⟨k, hk, hbound, ?_⟩
  rw [loadThenSteps_eq hc, hback, parity_getLsbD]
  rfl

end Sys2Proof.Machine
end

section
/-! PROOFS. The machine between calls: the place a step fetches from, the wires of the sequential module, and observations. -/

namespace Sys2Proof.Machine

/-! What a step fetches (R61 to R64). -/

section
variable {s s' : State} {m : SeqModule} {rest : List Input}

theorem step_of_run {c : Code} {i : Instr} (hfetch : fetch s = .run c s') (hdecode : decode c = .ok i) :
    step s = exec i s' := by
  simp only [step_eq_outcome, hfetch, Fetched.outcome, hdecode]

theorem fetch_of_parse (hp : s.gen.phase = .parse) : fetch s = .run (.literal s.gen.call.genPoly) s := by
  simp only [fetch, hp]

theorem fetch_of_build {p : Polynomial} (hp : s.gen.phase = .build) (hg : s.gen.poly = some p)
    (hm : s.gen.call.mode = .parallel) : fetch s = .run (.elaborate .parallel p s.gen.call.outWidth.toNat) s := by
  simp only [fetch, hp, fetchBuild, hg, hm]

theorem fetch_of_nothing {c : Circuit} (hp : s.gen.phase = .idle) (hi : s.inputs = []) (hc : s.circuit = some c) :
    fetch s = .run (.always c.mode) s := by
  simp only [fetch, hp, fetchInput, hi, fetchNets, hc]

/-- A rising clock samples the wires, in the state with the event taken and the clock wire high. -/
theorem fetch_of_rise (hp : s.gen.phase = .idle) (hc : s.circuit = some (.sequential m)) (hk : m.clk = false)
    (hi : s.inputs = .clk true :: rest) :
    fetch s = .run m.sampled ({ s with inputs := rest }.setSequential { m with clk := true }) := by
  simp [fetch, hp, fetchInput, hi, fetchClock, hc, hk]

end

/-- Settles O36: at each of the four places the step is what it fetches, decoded and executed. -/
theorem stepRunsTheDecoded : Obligations.StepRunsTheDecoded := by
  refine ⟨fun s i hp hd => ?_, fun s m rest i hp hc hk hi hd => ?_, fun s p i hp hg hm hd => ?_, fun s c i hp hi hc hd => ?_⟩
  · exact step_of_run (fetch_of_parse hp) hd
  · exact step_of_run (fetch_of_rise hp hc hk hi) hd
  · exact step_of_run (fetch_of_build hp hg hm) hd
  · exact step_of_run (fetch_of_nothing hp hi hc) hd

/-! The wires of the sequential module (R30, R177). -/

section
variable {s : State} {m : SeqModule} {rest : List Input}

/-- An instant without an active edge settles the net of the module whose wire has moved. -/
theorem step_of_nets {s' : State} (hfetch : fetch s = fetchNets (s'.setSequential m)) :
    step s = .next (s'.setSequential m.settle) := by
  rw [step_eq_outcome, hfetch, nets_sequential]

theorem step_of_reset_wire {b : Bool} (hp : s.gen.phase = .idle) (hc : s.circuit = some (.sequential m))
    (hi : s.inputs = .rst b :: rest) :
    step s = .next ({ s with inputs := rest }.setSequential (SeqModule.settle { m with rst := b })) :=
  step_of_nets (by simp only [fetch, hp, fetchInput, hi, fetchReset, hc])

theorem step_of_seed_wires {x : Word m.poly.width} (hp : s.gen.phase = .idle) (hc : s.circuit = some (.sequential m))
    (hi : s.inputs = .seed m.poly.width x :: rest) :
    step s = .next ({ s with inputs := rest }.setSequential (SeqModule.settle { m with seed := x })) :=
  step_of_nets (by simp only [fetch, hp, fetchInput, hi, fetchSeed, hc, portValue_self])

/-- A clock level that is no rise. -/
theorem step_of_clock_wire {b : Bool} (hp : s.gen.phase = .idle) (hc : s.circuit = some (.sequential m))
    (hi : s.inputs = .clk b :: rest) (hk : (b && !m.clk) = false) :
    step s = .next ({ s with inputs := rest }.setSequential (SeqModule.settle { m with clk := b })) :=
  step_of_nets (by simp [fetch, hp, fetchInput, hi, fetchClock, hc, hk])

end

/-- Settles O39: each event moves its wire, and then the net settles. -/
theorem wiresTakeTheirLevels : Obligations.WiresTakeTheirLevels := by
  intro s m rest b x hp hc
  refine ⟨fun hi => ?_, fun hi => ?_, fun hi => ?_, fun hi hk => ?_⟩
  · exact step_of_reset_wire hp hc hi
  · exact step_of_seed_wires hp hc hi
  · exact step_of_clock_wire hp hc hi rfl
  · exact step_of_clock_wire hp hc hi (by simp [hk])

/-- Settles O38: of the transitions of an idle sequential module, only an active edge writes the register, and only a generation
call replaces the module; the events named are neither. -/
theorem registerHoldsBetweenEdges : Obligations.RegisterHoldsBetweenEdges := by
  intro s t m hp hc hi h
  cases step_transition h with
  | parsed _ hp' | rejected _ hp' | checked hp' | synthesized _ hp' | expanded _ hp' | emittedSequential _ _ hp'
  | emittedParallel _ _ _ _ hp' => simp [hp] at hp'
  | started call rest _ hi' => simp [hi'] at hi
  | observed rest => exact ⟨m.clk, m.rst, m.seed, m.fb, hc, rfl, rfl⟩
  | nothing _ _ hc' => simp [hc] at hc'
  | wires m' rest clk rst seed _ hc' =>
    obtain rfl : m = m' := by simpa [hc] using hc'
    exact ⟨clk, rst, seed, m.feedbackNet, rfl, rfl, rfl⟩
  | loaded m' rest _ hc' hi' hk | advanced m' rest _ hc' hi' hk =>
    obtain rfl : m = m' := by simpa [hc] using hc'
    simp [hi', hk] at hi
  | outputs m' rest seed _ hc' => simp [hc] at hc'

/-! Observations (R156, R46). -/

theorem step_of_observe {s : State} {rest : List Input} (hp : s.gen.phase = .idle) (hi : s.inputs = .observe :: rest) :
    step s = observe { s with inputs := rest } := by
  simp only [step_eq_outcome, fetch, hp, fetchInput, hi, Fetched.outcome]

/-- Settles O41: the observation reads the register, and faults where there is nothing to read. -/
theorem observationOfState : Obligations.ObservationOfState := by
  intro s rest hp hi
  rw [step_of_observe hp hi]
  refine ⟨fun m hc hr => ?_, fun m v hc hr => ?_, fun m hc => ?_⟩
  · simp only [observe, hc, SeqModule.readState, SeqModule.readFeedback, hr, and_self]
  · simp only [observe, hc, SeqModule.readState, SeqModule.readFeedback, hr, and_self]
  · simp only [observe, hc]

end Sys2Proof.Machine
end

section
/-! PROOFS. The generation call (`30_encoding.md` section 4, `44_netlist_rendering.md`): what each of its places leaves, the whole
call, and the rules of the emitted text. -/

namespace Sys2Proof.Machine

/-! The places of a call, one step each (R64). -/

section
variable {s : State} {p : Polynomial}

theorem step_of_generate {call : GenCall} {rest : List Input} (hp : s.gen.phase = .idle)
    (hi : s.inputs = .generate call :: rest) : step s = .next ({ s with inputs := rest }.startCall call) := by
  simp only [step_eq_outcome, fetch, hp, fetchInput, hi, Fetched.outcome]

theorem step_of_startCall (s : State) (call : GenCall) :
    step (s.startCall call) = finishParse (parseLiteral call.genPoly) (s.startCall call) :=
  step_of_parse rfl

theorem step_of_build_sequential (hp : s.gen.phase = .build) (hg : s.gen.poly = some p)
    (hm : s.gen.call.mode = .sequential) : step s = .next (synthesize p s) := by
  simp only [step_eq_outcome, fetch, hp, fetchBuild, hg, hm, Fetched.outcome]

/-- EXPAND goes on, whatever the Polynomial (R109). -/
theorem step_of_build_parallel (hp : s.gen.phase = .build) (hg : s.gen.poly = some p) (hm : s.gen.call.mode = .parallel) :
    step s = .next (s.setSchedule (expand p s.gen.call.outWidth.toNat)) := by
  simp only [step_eq_outcome, fetch, hp, fetchBuild, hg, hm, Fetched.outcome, decode, decodeElaborate, exec_expand]

theorem step_of_emit_sequential {chain : Term} (hp : s.gen.phase = .emit) (hm : s.gen.call.mode = .sequential)
    (hg : s.gen.poly = some p) (hc : s.gen.chain = some chain) :
    step s = .next (s.complete (.sequential (SeqModule.powerOn p)) (sequentialText s.gen.call p chain)) := by
  simp only [step_eq_outcome, fetch, hp, Fetched.outcome, emit, hg, hc, Option.bind_some, configure_sequential hm]

theorem configure_of_eq_natCast {call : GenCall} {n : Nat} (hm : call.mode = .parallel) (hn : call.outWidth = n)
    (pos : 1 ≤ n) (p : Polynomial) : configure call p = some (.parallel p n pos) := by
  simp only [configure_parallel hm (by omega : 1 ≤ call.outWidth) p, hn, Int.toNat_natCast]

theorem step_of_emit_parallel {n : Nat} {sc : Schedule} (hp : s.gen.phase = .emit) (hm : s.gen.call.mode = .parallel)
    (hn : s.gen.call.outWidth = n) (pos : 1 ≤ n) (hg : s.gen.poly = some p) (hc : s.gen.sched = some sc) :
    step s = .next (s.complete (.parallel (ParModule.powerOn p n pos sc)) (parallelText s.gen.call p n pos sc)) := by
  simp only [step_eq_outcome, fetch, hp, Fetched.outcome, emit, hg, hc, Option.bind_some,
    configure_of_eq_natCast hm hn pos]

end

/-! The whole call. -/

section
variable {s t : State}

theorem runSteps_succ (h : step s = .next t) (k : Nat) : runSteps (k + 1) s = runSteps k t := by
  rw [runSteps, h]

/-- With nothing pending and no module, nothing ever happens. -/
theorem runSteps_of_nothing (hp : s.gen.phase = .idle) (hi : s.inputs = []) (hc : s.circuit = none) (k : Nat) :
    runSteps k s = .next s := by
  have hstep : step s = .next s := by
    simp only [step_eq_outcome, fetch, hp, fetchInput, hi, fetchNets, hc, Fetched.outcome]
  induction k with
  | zero => rfl
  | succ k ih => rw [runSteps_succ hstep, ih]

/-- A call whose literal does not parse has ended after two of its five steps. -/
theorem runSteps_of_parse_error {call : GenCall} {e : ElabError} (hp : s.gen.phase = .idle) (hi : s.inputs = [.generate call])
    (hlit : parseLiteral call.genPoly = .error e) :
    runSteps 5 s = .next ((State.startCall { s with inputs := [] } call).failWith e) := by
  have hparse := step_of_startCall { s with inputs := [] } call
  rw [hlit, finishParse] at hparse
  rw [runSteps_succ (step_of_generate hp hi), runSteps_succ hparse]
  exact runSteps_of_nothing rfl rfl rfl 3

/-- Otherwise the last three steps run with the Polynomial it parses to. -/
theorem runSteps_of_parse_ok {call : GenCall} {p : Polynomial} (hp : s.gen.phase = .idle) (hi : s.inputs = [.generate call])
    (hlit : parseLiteral call.genPoly = .ok p) :
    runSteps 5 s = runSteps 3 ((State.startCall { s with inputs := [] } call).setParsed p) := by
  have hparse := step_of_startCall { s with inputs := [] } call
  rw [hlit, finishParse] at hparse
  rw [runSteps_succ (step_of_generate hp hi), runSteps_succ hparse]

/-- An invalid width ends the call in the first of its last three steps. -/
theorem runSteps_of_invalid_width (hp : s.gen.phase = .width) (hm : s.gen.call.mode = .parallel)
    (hn : s.gen.call.outWidth < 1) (hi : s.inputs = []) :
    runSteps 3 s = .next (s.failWith (.invalidOutputWidth s.gen.call.outWidth)) := by
  rw [runSteps_succ (step_of_width hp), checkWidth_of_invalid hm hn]
  exact runSteps_of_nothing (s := s.failWith _) rfl hi rfl 2

theorem runSteps_of_sequential {p : Polynomial} (hp : s.gen.phase = .width) (hm : s.gen.call.mode = .sequential)
    (hg : s.gen.poly = some p) :
    runSteps 3 s = .next ((synthesize p s.enterBuild).complete (.sequential (SeqModule.powerOn p))
      (sequentialText s.gen.call p p.taps)) := by
  have hbuild : step s.enterBuild = .next (synthesize p s.enterBuild) := step_of_build_sequential rfl hg hm
  rw [runSteps_succ (step_of_width hp), checkWidth_of_valid (.inl hm), runSteps_succ hbuild]
  exact runSteps_succ (step_of_emit_sequential (s := synthesize p s.enterBuild) rfl hm hg rfl) 0

theorem runSteps_of_parallel {p : Polynomial} {n : Nat} (hp : s.gen.phase = .width) (hm : s.gen.call.mode = .parallel)
    (hn : s.gen.call.outWidth = n) (pos : 1 ≤ n) (hg : s.gen.poly = some p) :
    runSteps 3 s = .next ((s.enterBuild.setSchedule (expand p n)).complete
      (.parallel (ParModule.powerOn p n pos (expand p n))) (parallelText s.gen.call p n pos (expand p n))) := by
  have hbuild := step_of_build_parallel (s := s.enterBuild) rfl hg hm
  rw [State.enterBuild_call, hn, Int.toNat_natCast] at hbuild
  rw [runSteps_succ (step_of_width hp), checkWidth_of_valid (.inr (by omega)), runSteps_succ hbuild]
  exact runSteps_succ (step_of_emit_parallel (s := s.enterBuild.setSchedule (expand p n)) rfl hm hn pos hg rfl) 0

end

/-- Settles O43: the call ends in its parse, in its width check, or with the module of its mode. -/
theorem generationCallOutcome : Obligations.GenerationCallOutcome := by
  intro s call hp hi
  cases hlit : parseLiteral call.genPoly with
  | error e =>
    refine ⟨_, runSteps_of_parse_error hp hi hlit, rfl, rfl, fun e' he => ?_, nofun, nofun, nofun⟩
    cases he
    exact ⟨rfl, rfl, rfl⟩
  | ok p =>
    rw [runSteps_of_parse_ok hp hi hlit]
    cases hm : call.mode with
    | sequential =>
      refine ⟨_, runSteps_of_sequential rfl hm rfl, rfl, rfl, nofun, fun q hq _ => ?_, nofun, nofun⟩
      cases hq
      exact ⟨rfl, rfl, rfl⟩
    | parallel =>
      by_cases hn : call.outWidth < 1
      · refine ⟨_, runSteps_of_invalid_width rfl hm hn rfl, rfl, rfl, nofun, nofun, fun q hq _ _ => ⟨rfl, rfl, rfl⟩,
          fun q n pos _ _ hn' => absurd hn (by omega)⟩
      · obtain ⟨n, hn'⟩ := Int.eq_ofNat_of_zero_le (by omega : 0 ≤ call.outWidth)
        have pos : 1 ≤ n := by omega
        refine ⟨_, runSteps_of_parallel rfl hm hn' pos rfl, rfl, rfl, nofun, nofun, fun q _ _ h => absurd h hn,
          fun q k _ hq _ hk => ?_⟩
        obtain rfl : n = k := by omega
        cases hq
        exact ⟨rfl, rfl, rfl⟩

/-- Settles O44: both calls end as their common Polynomial, mode and width say, and no text reads the literal. -/
theorem emissionIsDeterministic : Obligations.EmissionIsDeterministic := by
  intro s s' call lit p hp hp' hi hi' hlit hlit'
  obtain ⟨t, ht, -, -, -, hseq, hinvalid, hpar⟩ := generationCallOutcome s call hp hi
  obtain ⟨t', ht', -, -, -, hseq', hinvalid', hpar'⟩ := generationCallOutcome s' { call with genPoly := lit } hp' hi'
  refine ⟨t, t', ht, ht', ?_⟩
  cases hm : call.mode with
  | sequential =>
    obtain ⟨-, hc, hx⟩ := hseq p hlit hm
    obtain ⟨-, hc', hx'⟩ := hseq' p hlit' hm
    exact ⟨hc.trans hc'.symm, hx.trans hx'.symm⟩
  | parallel =>
    by_cases hn : call.outWidth < 1
    · obtain ⟨-, hc, hx⟩ := hinvalid p hlit hm hn
      obtain ⟨-, hc', hx'⟩ := hinvalid' p hlit' hm hn
      exact ⟨hc.trans hc'.symm, hx.trans hx'.symm⟩
    · obtain ⟨n, hn'⟩ := Int.eq_ofNat_of_zero_le (by omega : 0 ≤ call.outWidth)
      obtain ⟨-, hc, hx⟩ := hpar p n (by omega) hlit hm hn'
      obtain ⟨-, hc', hx'⟩ := hpar' p n (by omega) hlit' hm hn'
      exact ⟨hc.trans hc'.symm, hx.trans hx'.symm⟩

/-! The emitted text (R143 to R149). -/

@[simp] theorem assignments_length (k : Nat) (sc : Schedule) : (assignments k sc).length = sc.length := by
  induction sc generalizing k with
  | nil => rfl
  | cons S sc ih => rw [assignments, List.length_cons, ih, List.length_cons]

/-- The assignment at place `i` is that of bit `k + i`, over the `i`-th term. -/
theorem assignments_getElem? (k : Nat) (sc : Schedule) {i : Nat} (hi : i < sc.length) :
    (assignments k sc)[i]? = some (.assignOut (k + i) (xorChain .seedBit (sc.getD i []))) := by
  induction sc generalizing k i with
  | nil => cases hi
  | cons S sc ih =>
    cases i with
    | zero => rfl
    | succ i => rw [assignments, List.getElem?_cons_succ, ih (k + 1) (Nat.lt_of_succ_lt_succ hi), List.getD_cons_succ,
        Nat.add_right_comm, Nat.add_assoc]

/-- Settles O45: the module at power-on and its text, as emission gives them. -/
theorem sequentialEmission : Obligations.SequentialEmission :=
  fun _ _ _ hp hm hg hc =>
    ⟨_, _, _, step_of_emit_sequential hp hm hg hc, rfl, rfl, rfl, rfl, rfl, rfl, rfl, rfl, rfl, rfl, rfl, rfl, rfl⟩

/-- Settles O46: the body lists one assignment for each term, in order. -/
theorem parallelEmission : Obligations.ParallelEmission := by
  intro s p n sc hp hm hn pos hg hc
  refine ⟨_, _, _, step_of_emit_parallel hp hm hn pos hg hc, rfl, rfl, rfl, rfl, rfl, rfl, rfl, assignments_length 0 sc,
    fun k hk => ?_, rfl, rfl, rfl, rfl⟩
  have hbit := assignments_getElem? 0 sc hk
  rwa [Nat.zero_add] at hbit

/-- Settles O47: the rendering puts each tap before those read so far, and a chain stands between operands only. -/
theorem renderingRules : Obligations.RenderingRules := by
  refine ⟨rfl, fun T t => ?_, fun f i => rfl, fun f i j S => rfl⟩
  rw [renderPolynomial, List.foldl_append]
  rfl

end Sys2Proof.Machine
end

section
/-! PROOFS. The invariant (`10_state.md`, `60_exceptions.md`): what keeps it, and the configuration it fixes. -/

namespace Sys2Proof.Machine

/-! Soundness of a generation call and of a module. -/

theorem Generator.sound_of_idle_or_parse {g : Generator} (hp : g.phase = .idle ∨ g.phase = .parse) (hg : g.poly = none)
    (hc : g.chain = none) (hs : g.sched = none) : g.Sound := by
  have hwidth : g.phase ≠ .width := by rcases hp with h | h <;> simp [h]
  have hbuild : g.phase ≠ .build := by rcases hp with h | h <;> simp [h]
  have hemit : g.phase ≠ .emit := by rcases hp with h | h <;> simp [h]
  exact
    { fresh := fun _ => hg
      parsed := by simp [hwidth, hbuild, hemit]
      early := fun _ => ⟨hc, hs⟩
      checked := by simp [hbuild, hemit]
      chain := fun h => absurd h hemit
      sched := fun h => absurd h hemit }

section
variable {m : SeqModule}

theorem SeqModule.settle_sound (h : m.cycle.isSome = m.reg.isSome) : m.settle.Sound := ⟨rfl, h⟩

theorem SeqModule.load_sound (m : SeqModule) (v : Word m.poly.width) : (m.load v).Sound := ⟨rfl, rfl⟩

theorem SeqModule.advance_sound (h : m.cycle.isSome = m.reg.isSome) : m.advance.Sound :=
  ⟨rfl, Option.isSome_map.trans (h.trans Option.isSome_map.symm)⟩

theorem SeqModule.powerOn_sound (p : Polynomial) : (SeqModule.powerOn p).Sound := ⟨rfl, rfl⟩

theorem ParModule.settle_sound {m : ParModule} (h : m.trees = expand m.poly m.n) : m.settle.Sound := ⟨h, rfl⟩

end

/-! States that meet the invariant. -/

section
variable {s t : State}

/-- Without a module and without text, the invariant is the soundness of the call. -/
theorem State.Inv.of_none (hg : s.gen.Sound) (hc : s.circuit = none) (hx : s.text = none)
    (he : s.gen.phase ≠ .idle → s.gen.error = none) : s.Inv :=
  { gen := hg
    circuit := by simp [hc]
    busy := fun h => ⟨hc, he h⟩
    failed := fun _ => hc
    whole := by rw [hc, hx]; rfl }

theorem State.reset_inv : State.reset.Inv :=
  .of_none (Generator.sound_of_idle_or_parse (.inl rfl) rfl rfl rfl) rfl rfl fun _ => rfl

theorem State.failWith_inv (s : State) (e : ElabError) : (s.failWith e).Inv :=
  .of_none (Generator.sound_of_idle_or_parse (.inl rfl) rfl rfl rfl) rfl rfl fun h => absurd rfl h

theorem State.startCall_inv (s : State) (call : GenCall) : (s.startCall call).Inv :=
  .of_none (Generator.sound_of_idle_or_parse (.inr rfl) rfl rfl rfl) rfl rfl fun _ => rfl

/-- During a call there is no text, since there is no module. -/
theorem State.Inv.text_of_busy (h : s.Inv) (hp : s.gen.phase ≠ .idle) : s.text = none := by
  obtain ⟨hc, -⟩ := h.busy hp
  simpa [hc] using h.whole

/-- A place of a call that leaves the module and the text alone keeps the invariant if the call stays sound. -/
theorem State.Inv.of_call (h : s.Inv) (hp : s.gen.phase ≠ .idle) (hg : t.gen.Sound) (he : t.gen.error = s.gen.error)
    (hc : t.circuit = s.circuit) (hx : t.text = s.text) : t.Inv := by
  obtain ⟨hnone, herror⟩ := h.busy hp
  exact .of_none hg (hc.trans hnone) (hx.trans (h.text_of_busy hp)) fun _ => he.trans herror

/-- A module exists between calls only. -/
theorem State.Inv.idle_of_module {c : Circuit} (h : s.Inv) (hc : s.circuit = some c) : s.gen.phase = .idle := by
  by_contra hp
  obtain ⟨hnone, -⟩ := h.busy hp
  simp [hc] at hnone

/-- An event of a module that leaves the call and the text alone keeps the invariant if the module stays sound. -/
theorem State.Inv.of_module {c c' : Circuit} (h : s.Inv) (hc : s.circuit = some c) (hg : t.gen = s.gen)
    (hx : t.text = s.text) (hc' : t.circuit = some c') (hsound : c'.Sound) : t.Inv := by
  have hidle : t.gen.phase = .idle := hg ▸ h.idle_of_module hc
  exact
    { gen := hg ▸ h.gen
      circuit := fun d hd => by
        obtain rfl : c' = d := by simpa [hc'] using hd
        exact hsound
      busy := fun hp => absurd hidle hp
      failed := fun he => by
        have hnone := h.failed (hg ▸ he)
        simp [hc] at hnone
      whole := by rw [hx, h.whole, hc, hc']; rfl }

/-- The pending events are no part of the invariant. -/
theorem State.Inv.with_inputs (h : s.Inv) (rest : List Input) : State.Inv { s with inputs := rest } :=
  { gen := h.gen, circuit := h.circuit, busy := h.busy, failed := h.failed, whole := h.whole }

/-- A completed call has a sound module and its text, and no error. -/
theorem State.Inv.complete (h : s.Inv) (hp : s.gen.phase ≠ .idle) {c : Circuit} (hc : c.Sound) (x : GeneratedModule) :
    (s.complete c x).Inv :=
  { gen := Generator.sound_of_idle_or_parse (.inl rfl) rfl rfl rfl
    circuit := fun d hd => by cases hd; exact hc
    busy := fun h => absurd rfl h
    failed := fun he => by
      obtain ⟨-, herror⟩ := h.busy hp
      simp [herror] at he
    whole := rfl }

/-! The places of a call keep the call sound. -/

theorem State.setParsed_sound (s : State) (p : Polynomial) : (s.setParsed p).gen.Sound := by
  constructor <;> simp

theorem State.enterBuild_sound (h : s.gen.Sound) (hp : s.gen.phase = .width)
    (hv : s.gen.call.mode = .parallel → 1 ≤ s.gen.call.outWidth) : s.enterBuild.gen.Sound :=
  { fresh := by simp
    parsed := fun _ => h.parsed (.inl hp)
    early := fun _ => h.early (by simp [hp])
    checked := fun _ => hv
    chain := by simp
    sched := by simp }

section
variable {p : Polynomial} (h : s.gen.Sound) (hp : s.gen.phase = .build) (hg : s.gen.poly = some p)
include hg

theorem synthesize_sound (hm : s.gen.call.mode = .sequential) : (synthesize p s).gen.Sound :=
  { fresh := by simp
    parsed := by simp [hg]
    early := by simp
    checked := by simp [hm]
    chain := by simp [hg]
    sched := by simp [hm] }

include h hp

theorem State.setSchedule_sound (hm : s.gen.call.mode = .parallel) :
    (s.setSchedule (expand p s.gen.call.outWidth.toNat)).gen.Sound :=
  { fresh := by simp
    parsed := by simp [hg]
    early := by simp
    checked := fun _ => h.checked (.inl hp)
    chain := by simp [hm]
    sched := by simp [hg] }

end

/-- The check ends the call, or leaves a valid width behind. -/
theorem State.Inv.checkWidth (h : s.Inv) (hp : s.gen.phase = .width) : (checkWidth s).Inv := by
  by_cases hv : s.gen.call.mode = .sequential ∨ 1 ≤ s.gen.call.outWidth
  · rw [checkWidth_of_valid hv]
    have hwidth : s.gen.call.mode = .parallel → 1 ≤ s.gen.call.outWidth := fun hm => by simpa [hm] using hv
    exact h.of_call (by simp [hp]) (State.enterBuild_sound h.gen hp hwidth) rfl rfl rfl
  · obtain ⟨hm, hn⟩ := not_or.mp hv
    have hpar : s.gen.call.mode = .parallel := by cases hmode : s.gen.call.mode <;> simp [hmode] at hm ⊢
    rw [checkWidth_of_invalid hpar (by omega)]
    exact s.failWith_inv _

/-- Every transition keeps the invariant. -/
theorem Transition.keeps_inv (h : s.Inv) (ht : Transition s t) : t.Inv := by
  cases ht with
  | parsed p hp =>
    have hbusy : s.gen.phase ≠ .idle := by simp [hp]
    obtain ⟨-, herror⟩ := h.busy hbusy
    exact h.of_call hbusy (s.setParsed_sound p) herror.symm rfl rfl
  | rejected e hp => exact s.failWith_inv e
  | checked hp => exact h.checkWidth hp
  | synthesized p hp hg hm => exact h.of_call (by simp [hp]) (synthesize_sound hg hm) rfl rfl rfl
  | expanded p hp hg hm => exact h.of_call (by simp [hp]) (State.setSchedule_sound h.gen hp hg hm) rfl rfl rfl
  | emittedSequential p chain hp =>
    exact h.complete (by simp [hp]) (c := .sequential (SeqModule.powerOn p)) (SeqModule.powerOn_sound p) _
  | emittedParallel p n pos sc hp hm hn hg hc =>
    have hsched : sc = expand p n := by simpa [hc, hg, ← hn] using h.gen.sched hp hm
    exact h.complete (by simp [hp]) (c := .parallel (ParModule.powerOn p n pos sc)) (ParModule.settle_sound hsched) _
  | started call rest => exact State.startCall_inv _ call
  | observed rest => exact h.with_inputs rest
  | nothing => exact h
  | wires m rest clk rst seed _ hc =>
    exact h.of_module hc rfl rfl rfl (SeqModule.settle_sound (h.circuit _ hc).count)
  | loaded m rest _ hc => exact h.of_module hc rfl rfl rfl (SeqModule.load_sound { m with clk := true } m.seed)
  | advanced m rest _ hc =>
    exact h.of_module hc rfl rfl rfl (SeqModule.advance_sound (m := { m with clk := true }) (h.circuit _ hc).count)
  | outputs m rest seed _ hc =>
    exact h.of_module hc rfl rfl rfl (ParModule.settle_sound (m := { m with seed := seed }) (h.circuit _ hc).trees)

/-- Only a generation call takes a module away, and no transition gives it another configuration (R20). -/
theorem Transition.keeps_configuration {c : Circuit} (hp : s.gen.phase = .idle) (hc : s.circuit = some c) (ht : Transition s t) :
    (∃ call rest, s.inputs = .generate call :: rest ∧ t.circuit = none) ∨
      ∃ c', t.circuit = some c' ∧ c'.configuration = c.configuration := by
  cases ht with
  | parsed _ hp' | rejected _ hp' | checked hp' | synthesized _ hp' | expanded _ hp' | emittedSequential _ _ hp'
  | emittedParallel _ _ _ _ hp' => simp [hp] at hp'
  | started call rest _ hi => exact .inl ⟨call, rest, hi, rfl⟩
  | observed rest => exact .inr ⟨c, hc, rfl⟩
  | nothing => exact .inr ⟨c, hc, rfl⟩
  | wires m _ _ _ _ _ hc' | loaded m _ _ hc' | advanced m _ _ hc' | outputs m _ _ _ hc' =>
    obtain rfl := Option.some.inj (hc.symm.trans hc')
    exact .inr ⟨_, rfl, rfl⟩

end

/-- Settles O48: nothing is elaborated and there is no module. -/
theorem resetMeetsTheInvariant : Obligations.ResetMeetsTheInvariant := ⟨State.reset_inv, rfl, rfl, rfl, rfl⟩

/-- Settles O49: a step that goes on is a transition, and every transition keeps the invariant. -/
theorem stepKeepsTheInvariant : Obligations.StepKeepsTheInvariant := fun _ _ h ht => (step_transition ht).keeps_inv h

/-- Settles O50: legality is carried by the configuration, and a state with a module is between calls. -/
theorem configurationIsFixed : Obligations.ConfigurationIsFixed :=
  fun _ c h hc => ⟨c.configuration.legal, fun _ ht => (step_transition ht).keeps_configuration (h.idle_of_module hc) hc⟩

end Sys2Proof.Machine
end

section
/-! PROOFS. Steps that do not go on (`60_exceptions.md`): from a state of the invariant only the observation of an uninitialised
register faults, and only events on foreign ports and of foreign widths are refused. -/

namespace Sys2Proof.Machine

/-! What each event answers. -/

section
variable {s : State} {r : Refusal}

/-- The always-active nets go on, with a module or without (log 26). -/
theorem nets_completes (s : State) : ∃ t, (fetchNets s).outcome = .next t := by
  obtain ⟨g, _ | (m | m), x, i⟩ := s
  · exact ⟨_, rfl⟩
  · exact ⟨_, rfl⟩
  · exact ⟨_, rfl⟩

/-- Every level of the clock wire is taken, as a rise or as none. -/
theorem clock_completes {m : SeqModule} (hc : s.circuit = some (.sequential m)) (b : Bool) :
    ∃ t, (fetchClock b s).outcome = .next t := by
  simp only [fetchClock, hc]
  split
  · exact ⟨_, sampled_outcome s { m with clk := b }⟩
  · exact nets_completes _

theorem clock_refused (hc : ∀ m, s.circuit ≠ some (.sequential m)) (b : Bool) :
    (fetchClock b s).outcome = .refused .noSuchPort := by
  unfold fetchClock
  split
  next m hm => exact absurd hm (hc m)
  next => rfl

theorem reset_completes {m : SeqModule} (hc : s.circuit = some (.sequential m)) (b : Bool) :
    ∃ t, (fetchReset b s).outcome = .next t := by
  simp only [fetchReset, hc]
  exact nets_completes _

theorem reset_refused (hc : ∀ m, s.circuit ≠ some (.sequential m)) (b : Bool) :
    (fetchReset b s).outcome = .refused .noSuchPort := by
  unfold fetchReset
  split
  next m hm => exact absurd hm (hc m)
  next => rfl

/-- The seed wires of either module take a value of the module's width. -/
theorem seed_completes {c : Circuit} {w : Nat} (hc : s.circuit = some c) (hw : w = c.configuration.poly.width) (x : Word w) :
    ∃ t, (fetchSeed w x s).outcome = .next t := by
  subst hw
  cases c with
  | sequential m =>
    have hport : portValue x m.poly.width = some x := portValue_self x
    simp only [fetchSeed, hc, hport]
    exact nets_completes _
  | parallel m =>
    have hport : portValue x m.poly.width = some x := portValue_self x
    simp only [fetchSeed, hc, hport]
    exact nets_completes _

theorem seed_refused {c : Circuit} {w : Nat} (hc : s.circuit = some c) (hw : w ≠ c.configuration.poly.width) (x : Word w) :
    (fetchSeed w x s).outcome = .refused .portWidth := by
  cases c with
  | sequential m =>
    have hport : portValue x m.poly.width = none := portValue_ne x hw
    simp only [fetchSeed, hc, hport, Fetched.outcome]
  | parallel m =>
    have hport : portValue x m.poly.width = none := portValue_ne x hw
    simp only [fetchSeed, hc, hport, Fetched.outcome]

theorem seed_refused_of_none (hc : s.circuit = none) {w : Nat} (x : Word w) :
    (fetchSeed w x s).outcome = .refused .noSuchPort := by
  simp only [fetchSeed, hc, Fetched.outcome]

end

/-! The events a module has no port for (R30, R31). -/

/-- The event `e` is refused for the reason `r`: it uses a port the hardware `c` does not have, or drives `seed` with a value of
another width (log 12). `step_of_foreign` and `step_of_event` tie it to the step. -/
def ForeignEvent (c : Option Circuit) (e : Input) (r : Refusal) : Prop :=
  r = .noSuchPort ∧ (c = none ∧ (∀ call, e ≠ .generate call) ∨
    (∃ m, c = some (.parallel m)) ∧ ∃ b, e = .clk b ∨ e = .rst b) ∨
  r = .portWidth ∧ ∃ w x d, e = .seed w x ∧ c = some d ∧ w ≠ d.configuration.poly.width

/-- An uninitialised register is observed (R156). -/
def UninitialisedObservation (s : State) : Prop :=
  ∃ rest m, s.inputs = .observe :: rest ∧ s.circuit = some (.sequential m) ∧ m.reg = none

section
variable {s : State} {e : Input} {rest : List Input}

theorem step_of_idle (hp : s.gen.phase = .idle) : step s = (fetchInput s).outcome := by
  simp only [step_eq_outcome, fetch, hp]

theorem step_of_clk {b : Bool} (hp : s.gen.phase = .idle) (hi : s.inputs = .clk b :: rest) :
    step s = (fetchClock b { s with inputs := rest }).outcome := by
  simp only [step_of_idle hp, fetchInput, hi]

theorem step_of_rst {b : Bool} (hp : s.gen.phase = .idle) (hi : s.inputs = .rst b :: rest) :
    step s = (fetchReset b { s with inputs := rest }).outcome := by
  simp only [step_of_idle hp, fetchInput, hi]

theorem step_of_seed_event {w : Nat} {x : Word w} (hp : s.gen.phase = .idle) (hi : s.inputs = .seed w x :: rest) :
    step s = (fetchSeed w x { s with inputs := rest }).outcome := by
  simp only [step_of_idle hp, fetchInput, hi]

theorem step_of_foreign {r : Refusal} (hp : s.gen.phase = .idle) (hi : s.inputs = e :: rest) (h : ForeignEvent s.circuit e r) :
    step s = .refused r := by
  rcases h with ⟨rfl, ⟨hnone, hcall⟩ | ⟨⟨m, hpar⟩, b, rfl | rfl⟩⟩ | ⟨rfl, w, x, c, rfl, hc, hw⟩
  · cases e with
    | generate call => exact absurd rfl (hcall call)
    | clk b => exact (step_of_clk hp hi).trans (clock_refused (by simp [hnone]) b)
    | rst b => exact (step_of_rst hp hi).trans (reset_refused (by simp [hnone]) b)
    | seed w x => exact (step_of_seed_event hp hi).trans (seed_refused_of_none (s := { s with inputs := rest }) hnone x)
    | observe => rw [step_of_observe hp hi]; simp only [observe, hnone]
  · exact (step_of_clk hp hi).trans (clock_refused (by simp [hpar]) b)
  · exact (step_of_rst hp hi).trans (reset_refused (by simp [hpar]) b)
  · exact (step_of_seed_event hp hi).trans (seed_refused (s := { s with inputs := rest }) hc hw x)

/-- Any event but a generation call needs a module. -/
theorem exists_circuit_of_event {c : Option Circuit} (he : ∀ call, e ≠ .generate call) (h : ∀ r, ¬ ForeignEvent c e r) :
    ∃ d, c = some d :=
  Option.ne_none_iff_exists'.mp fun hc => h .noSuchPort (.inl ⟨rfl, .inl ⟨hc, he⟩⟩)

/-- The clock and reset wires need a sequential module. -/
theorem exists_sequential_of_wire {c : Option Circuit} {b : Bool} (he : e = .clk b ∨ e = .rst b)
    (h : ∀ r, ¬ ForeignEvent c e r) : ∃ m, c = some (.sequential m) := by
  obtain ⟨d, rfl⟩ := exists_circuit_of_event (by rcases he with rfl | rfl <;> simp) h
  cases d with
  | sequential m => exact ⟨m, rfl⟩
  | parallel m => exact absurd (.inl ⟨rfl, .inr ⟨⟨m, rfl⟩, b, he⟩⟩) (h .noSuchPort)

/-- Every event that is not foreign goes on, but for the one observation that faults. -/
theorem step_of_event (hp : s.gen.phase = .idle) (hi : s.inputs = e :: rest) (h : ∀ r, ¬ ForeignEvent s.circuit e r) :
    (∃ t, step s = .next t) ∨ UninitialisedObservation s ∧ step s = .fault .uninitialisedRead := by
  cases e with
  | generate call => exact .inl ⟨_, step_of_generate hp hi⟩
  | clk b =>
    obtain ⟨m, hc⟩ := exists_sequential_of_wire (.inl rfl) h
    rw [step_of_clk hp hi]
    exact .inl (clock_completes (s := { s with inputs := rest }) hc b)
  | rst b =>
    obtain ⟨m, hc⟩ := exists_sequential_of_wire (.inr rfl) h
    rw [step_of_rst hp hi]
    exact .inl (reset_completes (s := { s with inputs := rest }) hc b)
  | seed w x =>
    obtain ⟨c, hc⟩ := exists_circuit_of_event (by simp) h
    have hw : w = c.configuration.poly.width := by
      by_contra hw
      exact h .portWidth (.inr ⟨rfl, w, x, c, rfl, hc, hw⟩)
    rw [step_of_seed_event hp hi]
    exact .inl (seed_completes (s := { s with inputs := rest }) hc hw x)
  | observe =>
    obtain ⟨c, hc⟩ := exists_circuit_of_event (by simp) h
    obtain ⟨hnone, hsome, hpar⟩ := observationOfState s rest hp hi
    cases c with
    | sequential m =>
      cases hr : m.reg with
      | none => exact .inr ⟨⟨rest, m, hi, hc, hr⟩, (hnone m hc hr).1⟩
      | some v => exact .inl ⟨_, (hsome m v hc hr).1⟩
    | parallel m => exact .inl ⟨_, hpar m hc⟩

/-- A generation call in progress goes on: each place finds what the earlier ones leave (R64). -/
theorem State.Inv.busy_completes (h : s.Inv) (hp : s.gen.phase ≠ .idle) : ∃ t, step s = .next t := by
  cases hphase : s.gen.phase with
  | idle => exact absurd hphase hp
  | parse =>
    rw [step_of_parse hphase]
    cases parseLiteral s.gen.call.genPoly <;> exact ⟨_, rfl⟩
  | width => exact ⟨_, step_of_width hphase⟩
  | build =>
    obtain ⟨p, hg⟩ := Option.isSome_iff_exists.mp (h.gen.parsed (.inr (.inl hphase)))
    cases hm : s.gen.call.mode with
    | sequential => exact ⟨_, step_of_build_sequential hphase hg hm⟩
    | parallel => exact ⟨_, step_of_build_parallel hphase hg hm⟩
  | emit =>
    obtain ⟨p, hg⟩ := Option.isSome_iff_exists.mp (h.gen.parsed (.inr (.inr hphase)))
    cases hm : s.gen.call.mode with
    | sequential =>
      have hchain : s.gen.chain = some p.taps := by rw [h.gen.chain hphase hm, hg, Option.map_some]
      exact ⟨_, step_of_emit_sequential hphase hm hg hchain⟩
    | parallel =>
      have hpos : 1 ≤ s.gen.call.outWidth := h.gen.checked (.inr hphase) hm
      have hsched : s.gen.sched = some (expand p s.gen.call.outWidth.toNat) := by
        rw [h.gen.sched hphase hm, hg, Option.map_some]
      exact ⟨_, step_of_emit_parallel hphase hm (Int.toNat_of_nonneg (by omega)).symm (by omega) hg hsched⟩

/-- What a step of a state of the invariant answers. -/
theorem State.Inv.step_answers (h : s.Inv) :
    (∃ t, step s = .next t) ∨ (UninitialisedObservation s ∧ step s = .fault .uninitialisedRead) ∨
      ∃ e rest r, s.gen.phase = .idle ∧ s.inputs = e :: rest ∧ ForeignEvent s.circuit e r ∧ step s = .refused r := by
  by_cases hp : s.gen.phase = .idle
  · cases hi : s.inputs with
    | nil =>
      rw [step_of_idle hp]
      simp only [fetchInput, hi]
      exact .inl (nets_completes s)
    | cons e rest =>
      by_cases hforeign : ∃ r, ForeignEvent s.circuit e r
      · obtain ⟨r, hr⟩ := hforeign
        exact .inr (.inr ⟨e, rest, r, hp, rfl, hr, step_of_foreign hp hi hr⟩)
      · rcases step_of_event hp hi (not_exists.mp hforeign) with hnext | hfault
        · exact .inl hnext
        · exact .inr (.inl hfault)
  · exact .inl (h.busy_completes hp)

end

/-- Settles O51: of the three kinds of answer only one is a fault. -/
theorem onlyObservationFaults : Obligations.OnlyObservationFaults := by
  intro s f h hf
  rcases h.step_answers with ⟨t, ht⟩ | ⟨hobs, hfault⟩ | ⟨_, _, r, _, _, _, hr⟩
  · rw [hf] at ht; cases ht
  · rw [hf] at hfault; cases hfault; exact ⟨rfl, hobs⟩
  · rw [hf] at hr; cases hr

/-- Settles O52: foreign events are refused, and a refusal answers nothing else. -/
theorem onlyForeignPortsAreRefused : Obligations.OnlyForeignPortsAreRefused := by
  intro s r h
  refine ⟨fun hr => ?_, fun ⟨hp, _, _, hi, hforeign⟩ => step_of_foreign hp hi hforeign⟩
  rcases h.step_answers with ⟨t, ht⟩ | ⟨_, hfault⟩ | ⟨e, rest, r', hp, hi, hforeign, hr'⟩
  · rw [hr] at ht; cases ht
  · rw [hr] at hfault; cases hfault
  · rw [hr] at hr'; cases hr'; exact ⟨hp, e, rest, hi, hforeign⟩

end Sys2Proof.Machine
end
